-- ==== Sys2Proof/Word.lean ====
section
/-! DEFINITION. The word types of the block: a byte, and the widths of the registers that are not
a byte (spec/00_scope.md R9, R10). Every quantity is unsigned (R10). -/

namespace Sys2Proof

/-- A byte on any port, in any buffer entry or in any field of a frame (R9 `BYTE_W` = 8). -/
abbrev Byte := BitVec 8

/-- The CSE accumulator `ACC`, `ACC_W` = 32 bits (R9, R21; the width is unobservable, R121).
DESIGN CHOICE, log entry 4 (safe). -/
abbrev AccWord := BitVec 32

/-- The parser accumulator `PACC`, `PACC_W` = 16 bits (R9, R29). -/
abbrev PaccWord := BitVec 16

/-- The filename counter `NLEN`, 5 bits (R38). -/
abbrev NlenWord := BitVec 5

end Sys2Proof
end

