-- ==== Sys2Proof/Config.lean ====
section
/-! DEFINITION. What an implementation fixes (spec/00_scope.md R9): the sizes of the two buffers, the
reset mode, and the open parameter of the bus binding. The other two open parameters of R9 have no
definition: `GAP_POLICY` is where `RX_END` stands among the presented events, and `SERIAL_BIT_ORDER`
is the transport's (log entry 17). -/

namespace Sys2Proof.Config

/-- `DBUF_N`: entries of the parser data buffer (R9, R36). -/
def dbufN : Nat := 255

/-- `NBUF_N`: entries of the filename buffer (R9, R37). -/
def nbufN : Nat := 24

/-- `PRE_RESET`: the value of `CTRL.PRE` after reset (R9, R23). -/
def preReset : Bool := false

/-- `REG_BASE` (R9, R67): the bus address of register number 0. OPEN: it has no value here, and no
rule and no definition of this model depends on it (log entry 18, safe). -/
opaque regBase : Nat

end Sys2Proof.Config
end

