-- ==== Sys2Proof/Machine/Checksum.lean ====
section
/-! DEFINITION. The checksum function of the Checksum Engine (spec/40_checksum.md R120). -/

namespace Sys2Proof

/-- The sum of the bytes as unsigned integers, never truncated (R10 `sum`, R120). -/
def byteSum : List Byte → Nat
  | [] => 0
  | b :: bs => b.toNat + byteSum bs

/-- `(n mod 256) XOR 0xFF`: what R120 does to a sum, and R22 and R31 to an accumulator. -/
def onesComplement (n : Nat) : Byte :=
  BitVec.ofNat 8 (n % 256) ^^^ 0xFF#8

/-- `checksum` (R120): total, pure, `0xFF` on the empty sequence (R123). -/
def checksum (bs : List Byte) : Byte :=
  onesComplement (byteSum bs)

end Sys2Proof
end

