-- ==== Sys2Proof/Machine/Types.lean ====
section
/-! DEFINITION. The closed sets of names the spec gives: registers, phases, response kinds,
classifications, parse statuses, errors, buffers, and the two code vocabularies. Their numbers
are in Sys2Proof/Machine/Codes.lean. -/

namespace Sys2Proof

/-- The eleven readable registers and views (R39). No other register can be named (R40, U6). -/
inductive Reg where
  | ctrl | stat | phase | csum | type | len | cnt | rck | xck | code | nlen
deriving DecidableEq, Repr

/-- The parser's position in the frame, the register `PHASE` (R25). -/
inductive Phase where
  | idle  -- between buffers
  | hunt  -- format F: looking for the first preamble byte
  | pre2  -- format F: one preamble byte seen
  | type  -- the next byte is the type byte
  | len   -- the next byte is the length byte
  | data  -- the next byte is a data byte
  | cks   -- the next byte is the checksum byte
  | done  -- the checksum byte has been taken
deriving DecidableEq, Repr

/-- The four response kinds; the set is closed (R94, R212). -/
inductive Kind where
  | readFileMore | directoryMore | generic12 | driveCondition
deriving DecidableEq, Repr

/-- What the dispatch multiplexer answers for a code (R200). -/
inductive DispatchResult where
  | hit (k : Kind)
  | miss
deriving DecidableEq, Repr

/-- The source's `ResponseClassification` (R201). -/
inductive Classification where
  | empty
  | known (k : Kind)
  | unrecognized (code : Byte)
deriving DecidableEq, Repr

/-- The parse status `prs` (R180). -/
inductive ParseStatus where
  | noFrame | truncated | checksumMismatch | frameOK
deriving DecidableEq, Repr

/-- The two errors an operation can report with `ERR` (R8, R220). -/
inductive EncError where
  | invalidFilename | badSearchForm
deriving DecidableEq, Repr

/-- The two buffers that hold state (R60). -/
inductive Buffer where
  | dbuf | nbuf
deriving DecidableEq, Repr

/-- The request-type codes the source names (R93). -/
inductive RequestType where
  | directory | close | erase | format | driveStatus | driveCondition
deriving DecidableEq, Repr

/-- The five search forms (R89). -/
inductive SearchForm where
  | ref | first | next | prev | endRef
deriving DecidableEq, Repr

/-- The error-code vocabulary carried inside response payloads (R95). The block neither produces nor
reads these: they are constants of the protocol. -/
inductive ErrorCode where
  | noError | fileNotFound | fileExists | noFilename | directorySearchError | bankError
  | parameterError | openFormatMismatch | endOfFile | noStartMark | crcCheckErrorInId
  | sectorLengthError | formatVerifyError | formatInterruption | eraseOffsetError
  | crcCheckErrorInData | sectorNumberError | readDataTimeout | sectorNumberError2
  | diskWriteProtect | uninitializedDisk | directoryFull | diskFull | fileTooLong | noDisk
  | diskChangeError
deriving DecidableEq, Repr

end Sys2Proof
end

