-- ==== Sys2Proof/Machine/Frames.lean ====
section
/-! DEFINITION. The frame formats the encoder builds (spec/30_encoding.md R80 to R91) and its two
functions (spec/41_encoder.md R140, R141). -/

namespace Sys2Proof

/-- Each of the two preamble bytes (R81). -/
def preambleByte : Byte := 0x5A

/-- The trailer of format CMD0T (R87). -/
def trailerByte : Byte := 0x0D

/-- The filename's pad byte (R90). -/
def padByte : Byte := 0x20

/-- The attribute byte, fixed (R91). -/
def attributeByte : Byte := 0x46

/-- The length byte of a directory command, fixed at 26 (R88). -/
def directoryLength : Byte := 0x1A

/-- The type byte of a directory command (R88, R93). -/
def directoryType : Byte := 0x00

/-- Type, length and data with the preamble before and the checksum of exactly those bytes after
(R80, R85). -/
def frameOfBody (body : List Byte) : List Byte :=
  preambleByte :: preambleByte :: (body ++ [checksum body])

/-- `buildSimpleCommand` (R140): format CMD0, total. -/
def buildSimpleCommand (t : Byte) : List Byte :=
  frameOfBody [t, 0x00]

/-- The filename field: the name, then pad bytes up to 24 (R90). -/
def padName (name : List Byte) : List Byte :=
  name ++ List.replicate (Config.nbufN - name.length) padByte

/-- Type, length and data of a directory command (R88, R141). -/
def directoryBody (sf : Byte) (name : List Byte) : List Byte :=
  directoryType :: directoryLength :: (padName name ++ [attributeByte, sf])

/-- The directory command frame, format CMDDIR (R88). -/
def directoryFrame (sf : Byte) (name : List Byte) : List Byte :=
  frameOfBody (directoryBody sf name)

/-- The largest search form (R89). -/
def lastSearchForm : Byte := 4

/-- `buildDirectoryCommand` (R141): refuses a name of more than 24 bytes, never truncates (C3), then
refuses a reserved search form (D7); the filename test comes first (R230). -/
def buildDirectoryCommand (sf : Byte) (name : List Byte) : Except EncError (List Byte) :=
  if name.length > Config.nbufN then .error .invalidFilename
  else if sf > lastSearchForm then .error .badSearchForm
  else .ok (directoryFrame sf name)

end Sys2Proof
end

