-- ==== Sys2Proof/Machine/Codes.lean ====
section
/-! DEFINITION. The code tables (spec/30_encoding.md R93 to R95), the dispatch table and the two
functions of the dispatch multiplexer (spec/43_dispatch.md R200, R201), and the numbers the spec
gives to its names (R25, R39, R180, R201, R220). -/

namespace Sys2Proof

/-- `DROM` (R41): constant, indexed by the kind (R200). `0x11` is a known code by C5 and D17. -/
def drom (k : Kind) : Byte :=
  match k with
  | .readFileMore => 0x10
  | .directoryMore => 0x11
  | .generic12 => 0x12
  | .driveCondition => 0x15

/-- The kind number, which is the index into `DROM` (R94, R200). -/
def kindNumber (k : Kind) : Nat :=
  match k with
  | .readFileMore => 0
  | .directoryMore => 1
  | .generic12 => 2
  | .driveCondition => 3

/-- `dispatch` (R200): four 8-bit equality comparators, exact on all eight bits (R208). -/
def dispatch (code : Byte) : DispatchResult :=
  if code = drom .readFileMore then .hit .readFileMore
  else if code = drom .directoryMore then .hit .directoryMore
  else if code = drom .generic12 then .hit .generic12
  else if code = drom .driveCondition then .hit .driveCondition
  else .miss

/-- The classification of a code that was received as byte 0 (R201, R206). -/
def classifyCode (code : Byte) : Classification :=
  match dispatch code with
  | .hit k => .known k
  | .miss => .unrecognized code

/-- The source's `classify` (R201): only byte 0 of the buffer is read. -/
def classify (buffer : List Byte) : Classification :=
  match buffer with
  | [] => .empty
  | b0 :: _ => classifyCode b0

/-- Request-type codes (R93). -/
def RequestType.code (t : RequestType) : Byte :=
  match t with
  | .directory => 0x00
  | .close => 0x02
  | .erase => 0x05
  | .format => 0x06
  | .driveStatus => 0x07
  | .driveCondition => 0x0C

/-- Search-form codes (R89). -/
def SearchForm.code (f : SearchForm) : Byte :=
  match f with
  | .ref => 0
  | .first => 1
  | .next => 2
  | .prev => 3
  | .endRef => 4

/-- Error codes (R95). -/
def ErrorCode.code (e : ErrorCode) : Byte :=
  match e with
  | .noError => 0x00
  | .fileNotFound => 0x10
  | .fileExists => 0x11
  | .noFilename => 0x30
  | .directorySearchError => 0x31
  | .bankError => 0x35
  | .parameterError => 0x36
  | .openFormatMismatch => 0x37
  | .endOfFile => 0x3F
  | .noStartMark => 0x40
  | .crcCheckErrorInId => 0x41
  | .sectorLengthError => 0x42
  | .formatVerifyError => 0x44
  | .formatInterruption => 0x46
  | .eraseOffsetError => 0x47
  | .crcCheckErrorInData => 0x49
  | .sectorNumberError => 0x4A
  | .readDataTimeout => 0x4B
  | .sectorNumberError2 => 0x4D
  | .diskWriteProtect => 0x50
  | .uninitializedDisk => 0x5E
  | .directoryFull => 0x60
  | .diskFull => 0x61
  | .fileTooLong => 0x6E
  | .noDisk => 0x70
  | .diskChangeError => 0x71

/-- The phase's numeric code (R25), which `RD(PHASE)` shows. -/
def Phase.code (p : Phase) : BitVec 3 :=
  match p with
  | .idle => 0
  | .hunt => 1
  | .pre2 => 2
  | .type => 3
  | .len => 4
  | .data => 5
  | .cks => 6
  | .done => 7

/-- Register numbers (R39): labels, not addresses. -/
def Reg.number (r : Reg) : Nat :=
  match r with
  | .ctrl => 0
  | .stat => 1
  | .phase => 2
  | .csum => 3
  | .type => 4
  | .len => 5
  | .cnt => 6
  | .rck => 7
  | .xck => 8
  | .code => 9
  | .nlen => 10

/-- The register a number names; a number outside 0 to 10 names none (R40, U6). -/
def regOfNumber (n : Nat) : Option Reg :=
  match n with
  | 0 => some .ctrl
  | 1 => some .stat
  | 2 => some .phase
  | 3 => some .csum
  | 4 => some .type
  | 5 => some .len
  | 6 => some .cnt
  | 7 => some .rck
  | 8 => some .xck
  | 9 => some .code
  | 10 => some .nlen
  | _ => none

/-- Numbers of the parse statuses (R180). -/
def ParseStatus.number (p : ParseStatus) : Nat :=
  match p with
  | .noFrame => 0
  | .truncated => 1
  | .checksumMismatch => 2
  | .frameOK => 3

/-- Tags of the classifications (R201); 0 is unused. -/
def Classification.tag (c : Classification) : Nat :=
  match c with
  | .empty => 1
  | .known _ => 2
  | .unrecognized _ => 3

/-- Codes of the errors (R220). -/
def EncError.code (e : EncError) : Nat :=
  match e with
  | .invalidFilename => 1
  | .badSearchForm => 2

end Sys2Proof
end

