-- ==== Sys2Proof/Syntax.lean ====
section
/-! DEFINITION. The operations of the block and the frame kinds: one constructor per row of
spec/opcode_table.json. -/

namespace Sys2Proof

/-- The eleven operations (R8) and the sixteen frame kinds (R99, R101).

The five directory rows carry no operand: as operations they work on the filename currently loaded
(R99), so the filename field of their frame is an implicit operand held in `NBUF`, as `ENC_DIR`'s
is (R146). The decoder keeps that field (`Decoded.name`) and the encoder takes it. Log entry 11.

The four response rows carry the rest of their frame: the length byte, the data and the checksum
byte received (R92). -/
inductive Instr where
  /-- `RST` (R250) -/
  | rst
  /-- `SET_PRE(v)` (R24) -/
  | setPre (v : Bool)
  /-- `RD(r)` (R40) -/
  | rd (r : Reg)
  /-- `CS_CLR` (R125) -/
  | csClr
  /-- `CS_PUT(b)` (R126) -/
  | csPut (b : Byte)
  /-- `NM_CLR` (R143) -/
  | nmClr
  /-- `NM_PUT(b)` (R144) -/
  | nmPut (b : Byte)
  /-- `ENC_SIMPLE(t, trail)` (R145) -/
  | encSimple (t : Byte) (trail : Bool)
  /-- `ENC_DIR(sf)` (R146) -/
  | encDir (sf : Byte)
  /-- `RX(b)` (R171) -/
  | rx (b : Byte)
  /-- `RX_END` (R179) -/
  | rxEnd
  /-- `DRIVE_STATUS` (R148) -/
  | driveStatus
  /-- `DRIVE_STATUS_CR` (R149) -/
  | driveStatusCr
  /-- `DRIVE_CONDITION` (R150) -/
  | driveCondition
  /-- `CLOSE` (R151) -/
  | close
  /-- `FORMAT` (R152) -/
  | format
  /-- `FORMAT_CR` (R153) -/
  | formatCr
  /-- `ERASE` (R154) -/
  | erase
  /-- `DIR_REF` (R155) -/
  | dirRef
  /-- `DIR_FIRST` (R156) -/
  | dirFirst
  /-- `DIR_NEXT` (R157) -/
  | dirNext
  /-- `DIR_PREV` (R158) -/
  | dirPrev
  /-- `DIR_END` (R159) -/
  | dirEnd
  /-- `RSP_READ_FILE_MORE` (R202) -/
  | rspReadFileMore (len : Byte) (data : List Byte) (cks : Byte)
  /-- `RSP_DIRECTORY_MORE` (R203) -/
  | rspDirectoryMore (len : Byte) (data : List Byte) (cks : Byte)
  /-- `RSP_GENERIC12` (R204) -/
  | rspGeneric12 (len : Byte) (data : List Byte) (cks : Byte)
  /-- `RSP_DRIVE_CONDITION` (R205) -/
  | rspDriveCondition (len : Byte) (data : List Byte) (cks : Byte)
deriving DecidableEq, Repr

end Sys2Proof
end

