-- ==== Sys2Proof/Machine/State.lean ====
section
/-! DEFINITION. The state of the block (spec/10_state.md R20 to R45), the events around it, the output
events (spec/00_scope.md R8), the reasons a step can stop, and the state after reset. -/

namespace Sys2Proof.Machine

/-- One of the block's internal memories (spec/20_memory.md R60): the entries that something has
written, as (index, byte) pairs. An entry that is not listed holds no value (R43). -/
abbrev Memory := List Host.Cell

/-- The canonical form of a memory with `size` entries: indices strictly rising and below `size`. No
listed entry can equal what an unlisted one reads as, because an unlisted one has no value. -/
abbrev Memory.wf (size : Nat) (m : Memory) : Prop :=
  m.Pairwise (fun c d => c.1 < d.1) ∧ ∀ c ∈ m, c.1 < size

/-- The `RES` record (R181): every field always has a value. -/
structure Res where
  cls   : Classification
  prs   : ParseStatus
  pm    : Bool
  phase : Phase
  type  : Byte
  len   : Byte
  cnt   : Byte
  data  : List Byte
  rck   : Byte
  xck   : Byte
  kind  : DispatchResult
  skip  : Bool
  trail : Bool
deriving DecidableEq, Repr

/-- The four output events (R8). -/
inductive OutEvent where
  | rdval (v : Byte)
  | txf (bytes : List Byte)
  | err (e : EncError)
  | res (r : Res)
deriving DecidableEq, Repr

/-- The complete state of the block (R20), and nothing else. -/
structure Block where
  /-- `ACC` (R21) -/
  acc   : AccWord
  /-- `CTRL` (R23): bit 0 is `PRE`, bits 7 to 1 are reserved -/
  ctrl  : Byte
  /-- `PM` (R26) -/
  pm    : Bool
  /-- `PHASE` (R25) -/
  phase : Phase
  /-- `TYPE` (R27) -/
  type  : Byte
  /-- `LEN` (R28) -/
  len   : Byte
  /-- `CNT` (R30) -/
  cnt   : Byte
  /-- `RCK` (R32) -/
  rck   : Byte
  /-- `CODE` (R33) -/
  code  : Byte
  /-- `PACC` (R29) -/
  pacc  : PaccWord
  /-- `GOT` (R34) -/
  got   : Bool
  /-- `SKIP` (R34) -/
  skip  : Bool
  /-- `TRAIL` (R34) -/
  trail : Bool
  /-- `CKOK` (R34) -/
  ckok  : Bool
  /-- `DBUF[0..254]` (R36) -/
  dbuf  : Memory
  /-- `NLEN` (R38) -/
  nlen  : NlenWord
  /-- `NBUF[0..23]` (R37) -/
  nbuf  : Memory
deriving DecidableEq, Repr

/-- One entry of the record of a run: the input event and the outputs of its step (R73). -/
structure Event where
  op   : Instr
  outs : List OutEvent
deriving DecidableEq, Repr

/-- Why the machine stops with a fault. Neither can happen in a state reachable from reset (R44), and
both are safe: the machine stops where the spec gives no value. -/
inductive Fault where
  /-- An index outside the buffer: `DBUF` has 255 entries and `NBUF` 24 (R60, R61). Raised by `RX`,
  `RX_END`, `ENC_DIR` and the rows that run them. Safe (log entry 6). -/
  | noEntry (b : Buffer) (i : Nat)
  /-- An entry nothing has written, which "holds no value a rule may read" (R43). Raised by `RX_END`,
  `ENC_DIR` and the rows that run them. Safe (log entry 5). -/
  | noValue (b : Buffer) (i : Nat)
deriving DecidableEq, Repr

/-- Why the machine gives an operation no meaning. -/
inductive Refusal where
  /-- An instruction that has no meaning in this model yet. No arm raises it. Safe. -/
  | notModelled (mnemonic : String)
  /-- An operation other than `RST` before the first `RST` (R239 (a), R251, U2). Raised by every
  operation but `RST`. Safe (log entry 3). -/
  | beforeReset
deriving DecidableEq, Repr

/-- The machine: the block, whether it has been reset, and the events around it. The last three
fields are the model's own bookkeeping of the host's events; R45 keeps them out of the block's state,
and no operation reads them (log entries 1 and 16). -/
structure State where
  /-- the block's own state (R20) -/
  block    : Block
  /-- an `RST` has been issued (R251) -/
  launched : Bool
  /-- the events the host has presented and the block has not taken yet, first to come first (R69) -/
  input    : List Instr
  /-- what the current step has emitted, in order (R11, R258) -/
  output   : List OutEvent
  /-- the record of the run, oldest first (R73) -/
  history  : List Event
deriving DecidableEq, Repr

/-- The value of `CTRL` after reset (R23, R43). -/
def ctrlReset : Byte :=
  if Config.preReset then 1 else 0

/-- The registers as `RST` leaves them (R43, R250), with the buffers given. -/
def Block.resetWith (dbuf nbuf : Memory) : Block :=
  { acc := 0, ctrl := ctrlReset, pm := false, phase := .idle, type := 0, len := 0, cnt := 0,
    rck := 0, code := 0, pacc := 0, got := false, skip := false, trail := false, ckok := false,
    dbuf := dbuf, nlen := 0, nbuf := nbuf }

/-- The block right after reset, no buffer entry ever written (R43). -/
def Block.reset : Block := Block.resetWith [] []

/-- The machine right after reset: nothing presented, nothing emitted. -/
def State.reset : State :=
  { block := Block.reset, launched := true, input := [], output := [], history := [] }

end Sys2Proof.Machine
end

