-- ==== Sys2Proof/Machine/Flags.lean ====
section
/-! DEFINITION. The views computed from state (spec/10_state.md R22, R23, R31, R35, R38), the checksum
flag (R177), the parse status (R180) and the parse mode at the end of a buffer (R179). -/

namespace Sys2Proof.Machine

/-- `CTRL.PRE`, bit 0 of `CTRL` (R23). -/
def Block.pre (b : Block) : Bool := b.ctrl.getLsbD 0

/-- `CTRL` with `PRE` written: bit 0 only, the reserved bits are not writable (R23, R24). -/
def ctrlWithPre (ctrl : Byte) (v : Bool) : Byte :=
  (ctrl &&& 0xFE#8) ||| (if v then 1#8 else 0#8)

/-- What `CTRL` reads as: the reserved bits read as 0 (R23, R39). -/
def Block.ctrlRead (b : Block) : Byte := b.ctrl &&& 1#8

/-- `CSUM` (R22). -/
def Block.csum (b : Block) : Byte := onesComplement b.acc.toNat

/-- `XCK` (R31). -/
def Block.xck (b : Block) : Byte := onesComplement b.pacc.toNat

/-- `NOVF` (R38). -/
def Block.novf (b : Block) : Bool := b.nlen == 25#5

/-- `STAT` (R35), bit 7 first: two zero bits, `PM`, `NOVF`, `CKOK`, `TRAIL`, `SKIP`, `GOT`. -/
def Block.stat (b : Block) : Byte :=
  0#2 ++ BitVec.ofBool b.pm ++ BitVec.ofBool b.novf ++ BitVec.ofBool b.ckok
    ++ BitVec.ofBool b.trail ++ BitVec.ofBool b.skip ++ BitVec.ofBool b.got

/-- `CKOK` for a received checksum byte (R177): it equals `XCK`. -/
def Block.checksumOk (b : Block) (received : Byte) : Bool := received == b.xck

/-- `prs` (R180). -/
def Block.parseStatus (b : Block) : ParseStatus :=
  match b.phase with
  | .idle | .hunt | .pre2 => .noFrame
  | .type | .len | .data | .cks => .truncated
  | .done => if b.ckok then .frameOK else .checksumMismatch

/-- `pm` of a `RES` record: the mode of the buffer, or `CTRL.PRE` now for an empty one (R179). -/
def Block.bufferMode (b : Block) : Bool :=
  match b.phase with
  | .idle => b.pre
  | .hunt | .pre2 | .type | .len | .data | .cks | .done => b.pm

/-- `cls` of a `RES` record (R179, R210): byte 0 of the buffer through the dispatch table. -/
def Block.classification (b : Block) : Classification :=
  if b.got then classifyCode b.code else .empty

end Sys2Proof.Machine
end

