-- ==== Sys2Proof/Machine/Operands.lean ====
section
/-! DEFINITION. The operand forms: the register operand of `RD` (spec/10_state.md R39, R40) and the
indices into the two buffers (spec/20_memory.md R61). -/

namespace Sys2Proof.Machine

/-- The 8-bit read value of a register or view (R39). -/
def Block.readReg (b : Block) (r : Reg) : Byte :=
  match r with
  | .ctrl => b.ctrlRead
  | .stat => b.stat
  | .phase => b.phase.code.zeroExtend 8
  | .csum => b.csum
  | .type => b.type
  | .len => b.len
  | .cnt => b.cnt
  | .rck => b.rck
  | .xck => b.xck
  | .code => b.code
  | .nlen => b.nlen.zeroExtend 8

/-- The index a `DBUF` store uses, before `CNT` is incremented (R61, R176). -/
def Block.dataIndex (b : Block) : Nat := b.cnt.toNat

/-- The index an `NBUF` store uses, before `NLEN` is incremented (R61, R144). -/
def Block.nameIndex (b : Block) : Nat := b.nlen.toNat

end Sys2Proof.Machine
end

