-- ==== Sys2Proof/Machine/Ops.lean ====
section
/-! DEFINITION. The named operations over memory and registers: reading and writing a buffer entry
(spec/00_scope.md R11 `MemRead`, `MemWrite`), emitting an output, raising an error
(spec/60_exceptions.md R231), clearing the parser (spec/42_parser.md R179), and performing an
operation of the block in the machine. -/

namespace Sys2Proof.Machine

/-- What one operation does: the block after it and the output events it emits (R7), or a fault. -/
abbrev Effect := Except Fault (Block × List OutEvent)

/-- The value of an entry, if anything has written it. -/
def Memory.read : Memory → Nat → Option Byte
  | [], _ => none
  | (j, v) :: m, i => if j = i then some v else Memory.read m i

/-- Write an entry, keeping the indices strictly rising. -/
def Memory.write : Memory → Nat → Byte → Memory
  | [], i, v => [(i, v)]
  | (j, w) :: m, i, v =>
    if i < j then (i, v) :: (j, w) :: m
    else if i = j then (i, v) :: m
    else (j, w) :: Memory.write m i v

/-- How many entries a buffer has (R60). -/
def bufferSize (k : Buffer) : Nat :=
  match k with
  | .dbuf => Config.dbufN
  | .nbuf => Config.nbufN

/-- The memory of a buffer. -/
def Block.mem (b : Block) (k : Buffer) : Memory :=
  match k with
  | .dbuf => b.dbuf
  | .nbuf => b.nbuf

/-- The block with a buffer's memory replaced. -/
def Block.withMem (b : Block) (k : Buffer) (m : Memory) : Block :=
  match k with
  | .dbuf => { b with dbuf := m }
  | .nbuf => { b with nbuf := m }

/-- `MemRead(k, i, 1)` (R11): an index outside the buffer or an entry without a value faults. -/
def Block.readEntry (b : Block) (k : Buffer) (i : Nat) : Except Fault Byte :=
  if i < bufferSize k then
    match (b.mem k).read i with
    | some v => .ok v
    | none => .error (.noValue k i)
  else .error (.noEntry k i)

/-- `MemWrite(k, i, 1, v)` (R11): an index outside the buffer faults. -/
def Block.writeEntry (b : Block) (k : Buffer) (i : Nat) (v : Byte) : Except Fault Block :=
  if i < bufferSize k then .ok (b.withMem k ((b.mem k).write i v)) else .error (.noEntry k i)

/-- `n` entries from index `i` on, in order. -/
def Block.readEntries (b : Block) (k : Buffer) (i : Nat) : Nat → Except Fault (List Byte)
  | 0 => .ok []
  | n + 1 =>
    match b.readEntry k i with
    | .error f => .error f
    | .ok v =>
      match b.readEntries k (i + 1) n with
      | .error f => .error f
      | .ok vs => .ok (v :: vs)

/-- An operation that emits nothing. -/
def quiet (b : Block) : Effect := .ok (b, [])

/-- `emit X` (R11), as the only output of the operation. -/
def emit (o : OutEvent) (b : Block) : Effect := .ok (b, [o])

/-- `raise E` (R11, R231): the operation emits `ERR(E)` as its only output and changes nothing. This
is the block's only form of exception, and there is no return from it (R232). -/
def raise (e : EncError) (b : Block) : Effect := emit (.err e) b

/-- One effect after another, outputs in order (R69). -/
def Effect.andThen (e : Effect) (k : Block → Effect) : Effect :=
  match e with
  | .error f => .error f
  | .ok (b, outs) =>
    match k b with
    | .error f => .error f
    | .ok (b', outs') => .ok (b', outs ++ outs')

/-- Every PKT and DSP register and flag at its reset value (R179); `DBUF` is not cleared. -/
def Block.clearParser (b : Block) : Block :=
  { b with
    phase := .idle, pm := false, type := 0, len := 0, cnt := 0, rck := 0, code := 0, pacc := 0,
    got := false, skip := false, trail := false, ckok := false }

/-- `RST` on the block (R250): the reset values, the buffers left as they are. -/
def Block.resetRegisters (b : Block) : Block := Block.resetWith b.dbuf b.nbuf

/-- The machine with the block and the outputs of an operation. -/
def State.commit (s : State) (b : Block) (outs : List OutEvent) : State :=
  { s with block := b, output := s.output ++ outs }

/-- Perform an operation of the block. Before the first `RST` the model gives it no meaning (R239 (a),
R251). -/
def State.perform (s : State) (op : Block → Effect) : Host.Outcome State Fault Refusal :=
  if s.launched then
    match op s.block with
    | .ok (b, outs) => .next (s.commit b outs)
    | .error f => .fault f
  else .refused .beforeReset

end Sys2Proof.Machine
end

