-- ==== Sys2Proof/Machine/Control.lean ====
section
/-! DEFINITION. The control operations `RST` (spec/70_reset_and_hazards.md R250), `SET_PRE`
(spec/10_state.md R24) and `RD` (R40). -/

namespace Sys2Proof.Machine

/-- `RST` (R250): legal in every state, before any other `RST` too; emits nothing. -/
def execRst (s : State) : Host.Outcome State Fault Refusal :=
  .next { s with block := s.block.resetRegisters, launched := true }

/-- `SET_PRE(v)` on the block (R24): `CTRL.PRE` at once, never `PM`. -/
def setPre (v : Bool) (b : Block) : Effect :=
  quiet { b with ctrl := ctrlWithPre b.ctrl v }

/-- `SET_PRE(v)` (R24). -/
def execSetPre (v : Bool) (s : State) : Host.Outcome State Fault Refusal :=
  s.perform (setPre v)

/-- `RD(r)` on the block (R40, R127): no state is written. -/
def readRegister (r : Reg) (b : Block) : Effect :=
  emit (.rdval (b.readReg r)) b

/-- `RD(r)` (R40). -/
def execRd (r : Reg) (s : State) : Host.Outcome State Fault Refusal :=
  s.perform (readRegister r)

end Sys2Proof.Machine
end

