-- ==== Sys2Proof/Machine/Cse.lean ====
section
/-! DEFINITION. The Checksum Engine's operations (spec/40_checksum.md R125, R126). -/

namespace Sys2Proof.Machine

/-- `CS_CLR` on the block (R125). -/
def csClr (b : Block) : Effect :=
  quiet { b with acc := 0 }

/-- `CS_CLR` (R125). -/
def execCsClr (s : State) : Host.Outcome State Fault Refusal :=
  s.perform csClr

/-- `CS_PUT(v)` on the block (R126): the sum wraps silently at `ACC_W` bits. -/
def csPut (v : Byte) (b : Block) : Effect :=
  quiet { b with acc := b.acc + v.zeroExtend 32 }

/-- `CS_PUT(b)` (R126). -/
def execCsPut (v : Byte) (s : State) : Host.Outcome State Fault Refusal :=
  s.perform (csPut v)

end Sys2Proof.Machine
end

