-- ==== Sys2Proof/Machine/Pkt.lean ====
section
/-! DEFINITION. The packet parser's operations `RX` (spec/42_parser.md R171 to R178) and `RX_END`
(R179), and the delivery of a whole buffer, which is R99's expansion of `classify(buf)`. -/

namespace Sys2Proof.Machine

/-- The prologue of `RX` for the first byte of a buffer (R171). -/
def beginBuffer (v : Byte) (b : Block) : Block :=
  { b with got := true, code := v, pm := b.pre }

/-- Arm `HUNT` (R172). -/
def rxHunt (v : Byte) (b : Block) : Block :=
  if v = preambleByte then { b with phase := .pre2 } else { b with phase := .hunt, skip := true }

/-- Arm `PRE2` (R173). -/
def rxPre2 (v : Byte) (b : Block) : Block :=
  if v = preambleByte then { b with phase := .type } else { b with phase := .hunt, skip := true }

/-- Arm `TYPE` (R174). -/
def rxType (v : Byte) (b : Block) : Block :=
  { b with type := v, pacc := v.zeroExtend 16, phase := .len }

/-- Arm `LEN` (R175). -/
def rxLen (v : Byte) (b : Block) : Block :=
  { b with len := v, pacc := b.pacc + v.zeroExtend 16, cnt := 0,
           phase := if v = 0 then .cks else .data }

/-- Arm `DATA` (R176): store at `CNT`, add, count; the checksum byte is next after `LEN` bytes. -/
def rxData (v : Byte) (b : Block) : Except Fault Block :=
  match b.writeEntry .dbuf b.dataIndex v with
  | .error f => .error f
  | .ok b' =>
    .ok { b' with pacc := b.pacc + v.zeroExtend 16, cnt := b.cnt + 1,
                  phase := if b.cnt + 1 = b.len then .cks else b.phase }

/-- Arm `CKS` (R177): a mismatch is recorded, not raised. -/
def rxCks (v : Byte) (b : Block) : Block :=
  { b with rck := v, ckok := b.checksumOk v, phase := .done }

/-- Arm `DONE` (R178): the byte is ignored but for the flag. -/
def rxDone (b : Block) : Block :=
  { b with trail := true }

/-- `RX(v)` on the block (R171): the arm of the phase; the first byte of a buffer goes through the
prologue and then to the arm the mode selects. -/
def receive (v : Byte) (b : Block) : Except Fault Block :=
  match b.phase with
  | .idle => .ok (if b.pre then rxHunt v (beginBuffer v b) else rxType v (beginBuffer v b))
  | .hunt => .ok (rxHunt v b)
  | .pre2 => .ok (rxPre2 v b)
  | .type => .ok (rxType v b)
  | .len => .ok (rxLen v b)
  | .data => rxData v b
  | .cks => .ok (rxCks v b)
  | .done => .ok (rxDone b)

/-- `RX(v)` as an effect: it never emits anything (R171). -/
def receiveByte (v : Byte) (b : Block) : Effect :=
  match receive v b with
  | .ok b' => quiet b'
  | .error f => .error f

/-- `RX(b)` (R171). -/
def execRx (v : Byte) (s : State) : Host.Outcome State Fault Refusal :=
  s.perform (receiveByte v)

/-- The `RES` record of the buffer that ends (R179, R181), `data` being `DBUF[0..CNT-1]`. -/
def Block.result (b : Block) (data : List Byte) : Res :=
  { cls := b.classification, prs := b.parseStatus, pm := b.bufferMode, phase := b.phase,
    type := b.type, len := b.len, cnt := b.cnt, data := data, rck := b.rck, xck := b.xck,
    kind := dispatch b.type, skip := b.skip, trail := b.trail }

/-- `RX_END` on the block (R179): the record is computed before the clearing. -/
def endBuffer (b : Block) : Effect :=
  match b.readEntries .dbuf 0 b.cnt.toNat with
  | .ok data => emit (.res (b.result data)) b.clearParser
  | .error f => .error f

/-- `RX_END` (R179). -/
def execRxEnd (s : State) : Host.Outcome State Fault Refusal :=
  s.perform endBuffer

/-- `RX` of each byte in order (R62, R170). -/
def receiveAll : List Byte → Block → Except Fault Block
  | [], b => .ok b
  | v :: vs, b =>
    match receive v b with
    | .ok b' => receiveAll vs b'
    | .error f => .error f

/-- The expansion of `classify(buf)` (R99): `RX` of every byte of the buffer, then `RX_END`. -/
def deliverBuffer (buffer : List Byte) (b : Block) : Effect :=
  match receiveAll buffer b with
  | .ok b' => endBuffer b'
  | .error f => .error f

end Sys2Proof.Machine
end

