-- ==== Sys2Proof/Machine/Dsp.lean ====
section
/-! DEFINITION. The response frames of the dispatch multiplexer (spec/43_dispatch.md R202 to R205):
a frame of the kind, delivered as one buffer (log entry 12). -/

namespace Sys2Proof.Machine

/-- The bytes of a response frame: type, length, data, checksum (spec/30_encoding.md R92). -/
def responseFrame (k : Kind) (len : Byte) (data : List Byte) (cks : Byte) : List Byte :=
  drom k :: len :: (data ++ [cks])

/-- `RSP_READ_FILE_MORE` (R202). -/
def execRspReadFileMore (len : Byte) (data : List Byte) (cks : Byte) (s : State) :
    Host.Outcome State Fault Refusal :=
  s.perform (deliverBuffer (responseFrame .readFileMore len data cks))

/-- `RSP_DIRECTORY_MORE` (R203). -/
def execRspDirectoryMore (len : Byte) (data : List Byte) (cks : Byte) (s : State) :
    Host.Outcome State Fault Refusal :=
  s.perform (deliverBuffer (responseFrame .directoryMore len data cks))

/-- `RSP_GENERIC12` (R204). -/
def execRspGeneric12 (len : Byte) (data : List Byte) (cks : Byte) (s : State) :
    Host.Outcome State Fault Refusal :=
  s.perform (deliverBuffer (responseFrame .generic12 len data cks))

/-- `RSP_DRIVE_CONDITION` (R205). -/
def execRspDriveCondition (len : Byte) (data : List Byte) (cks : Byte) (s : State) :
    Host.Outcome State Fault Refusal :=
  s.perform (deliverBuffer (responseFrame .driveCondition len data cks))

end Sys2Proof.Machine
end

