-- ==== Sys2Proof/Machine/Enc.lean ====
section
/-! DEFINITION. The Frame Encoder's operations (spec/41_encoder.md R143 to R146) and the twelve named
command frames, which are pseudo-operations over them (spec/30_encoding.md R99; log entry 10). -/

namespace Sys2Proof.Machine

/-- `NM_CLR` on the block (R143): `NBUF` is left as it is. -/
def nmClr (b : Block) : Effect :=
  quiet { b with nlen := 0 }

/-- `NM_CLR` (R143). -/
def execNmClr (s : State) : Host.Outcome State Fault Refusal :=
  s.perform nmClr

/-- `NM_PUT(v)` on the block (R144): append while fewer than 24 bytes are held, else only record the
overflow. -/
def nmPut (v : Byte) (b : Block) : Effect :=
  if b.nlen < 24 then
    match b.writeEntry .nbuf b.nameIndex v with
    | .ok b' => quiet { b' with nlen := b.nlen + 1 }
    | .error f => .error f
  else quiet { b with nlen := 25 }

/-- `NM_PUT(b)` (R144). -/
def execNmPut (v : Byte) (s : State) : Host.Outcome State Fault Refusal :=
  s.perform (nmPut v)

/-- The bytes `ENC_SIMPLE` puts on the wire (R145): format CMD0, or CMD0T with the trailer. -/
def simpleBytes (t : Byte) (trail : Bool) : List Byte :=
  if trail then buildSimpleCommand t ++ [trailerByte] else buildSimpleCommand t

/-- `ENC_SIMPLE(t, trail)` on the block (R145): any code, no state written. -/
def encodeSimple (t : Byte) (trail : Bool) (b : Block) : Effect :=
  emit (.txf (simpleBytes t trail)) b

/-- `ENC_SIMPLE(t, trail)` (R145). -/
def execEncSimple (t : Byte) (trail : Bool) (s : State) : Host.Outcome State Fault Refusal :=
  s.perform (encodeSimple t trail)

/-- `ENC_DIR(sf)` on the block (R146): the filename test first, then the search form (R230). -/
def encodeDirectory (sf : Byte) (b : Block) : Effect :=
  if b.novf then raise .invalidFilename b
  else if sf > lastSearchForm then raise .badSearchForm b
  else
    match b.readEntries .nbuf 0 b.nlen.toNat with
    | .ok name => emit (.txf (directoryFrame sf name)) b
    | .error f => .error f

/-- `ENC_DIR(sf)` (R146). -/
def execEncDir (sf : Byte) (s : State) : Host.Outcome State Fault Refusal :=
  s.perform (encodeDirectory sf)

/-- `DRIVE_STATUS` (R148): `ENC_SIMPLE 07, 0`. -/
def execDriveStatus (s : State) : Host.Outcome State Fault Refusal :=
  s.perform (encodeSimple RequestType.driveStatus.code false)

/-- `DRIVE_STATUS_CR` (R149): `ENC_SIMPLE 07, 1`. -/
def execDriveStatusCr (s : State) : Host.Outcome State Fault Refusal :=
  s.perform (encodeSimple RequestType.driveStatus.code true)

/-- `DRIVE_CONDITION` (R150): `ENC_SIMPLE 0C, 0`. -/
def execDriveCondition (s : State) : Host.Outcome State Fault Refusal :=
  s.perform (encodeSimple RequestType.driveCondition.code false)

/-- `CLOSE` (R151): `ENC_SIMPLE 02, 0`. -/
def execClose (s : State) : Host.Outcome State Fault Refusal :=
  s.perform (encodeSimple RequestType.close.code false)

/-- `FORMAT` (R152): `ENC_SIMPLE 06, 0`. -/
def execFormat (s : State) : Host.Outcome State Fault Refusal :=
  s.perform (encodeSimple RequestType.format.code false)

/-- `FORMAT_CR` (R153): `ENC_SIMPLE 06, 1`. -/
def execFormatCr (s : State) : Host.Outcome State Fault Refusal :=
  s.perform (encodeSimple RequestType.format.code true)

/-- `ERASE` (R154): `ENC_SIMPLE 05, 0`. -/
def execErase (s : State) : Host.Outcome State Fault Refusal :=
  s.perform (encodeSimple RequestType.erase.code false)

/-- `DIR_REF` (R155): `ENC_DIR 00` on the filename currently loaded. -/
def execDirRef (s : State) : Host.Outcome State Fault Refusal :=
  s.perform (encodeDirectory SearchForm.ref.code)

/-- `DIR_FIRST` (R156): `ENC_DIR 01` on the filename currently loaded. -/
def execDirFirst (s : State) : Host.Outcome State Fault Refusal :=
  s.perform (encodeDirectory SearchForm.first.code)

/-- `DIR_NEXT` (R157): `ENC_DIR 02` on the filename currently loaded. -/
def execDirNext (s : State) : Host.Outcome State Fault Refusal :=
  s.perform (encodeDirectory SearchForm.next.code)

/-- `DIR_PREV` (R158): `ENC_DIR 03` on the filename currently loaded. -/
def execDirPrev (s : State) : Host.Outcome State Fault Refusal :=
  s.perform (encodeDirectory SearchForm.prev.code)

/-- `DIR_END` (R159): `ENC_DIR 04` on the filename currently loaded. -/
def execDirEnd (s : State) : Host.Outcome State Fault Refusal :=
  s.perform (encodeDirectory SearchForm.endRef.code)

end Sys2Proof.Machine
end

