-- ==== Sys2Proof/Machine/Dispatch.lean ====
section
/-! DEFINITION. The meaning of every row of spec/opcode_table.json, in the table's order. -/

namespace Sys2Proof.Machine

def exec (i : Instr) (s : State) : Host.Outcome State Fault Refusal :=
  match i with
  | .rst => Sys2Proof.Machine.execRst s
  | .setPre v => Sys2Proof.Machine.execSetPre v s
  | .rd r => Sys2Proof.Machine.execRd r s
  | .csClr => Sys2Proof.Machine.execCsClr s
  | .csPut b => Sys2Proof.Machine.execCsPut b s
  | .nmClr => Sys2Proof.Machine.execNmClr s
  | .nmPut b => Sys2Proof.Machine.execNmPut b s
  | .encSimple t trail => Sys2Proof.Machine.execEncSimple t trail s
  | .encDir sf => Sys2Proof.Machine.execEncDir sf s
  | .rx b => Sys2Proof.Machine.execRx b s
  | .rxEnd => Sys2Proof.Machine.execRxEnd s
  | .driveStatus => Sys2Proof.Machine.execDriveStatus s
  | .driveStatusCr => Sys2Proof.Machine.execDriveStatusCr s
  | .driveCondition => Sys2Proof.Machine.execDriveCondition s
  | .close => Sys2Proof.Machine.execClose s
  | .format => Sys2Proof.Machine.execFormat s
  | .formatCr => Sys2Proof.Machine.execFormatCr s
  | .erase => Sys2Proof.Machine.execErase s
  | .dirRef => Sys2Proof.Machine.execDirRef s
  | .dirFirst => Sys2Proof.Machine.execDirFirst s
  | .dirNext => Sys2Proof.Machine.execDirNext s
  | .dirPrev => Sys2Proof.Machine.execDirPrev s
  | .dirEnd => Sys2Proof.Machine.execDirEnd s
  | .rspReadFileMore len data cks => Sys2Proof.Machine.execRspReadFileMore len data cks s
  | .rspDirectoryMore len data cks => Sys2Proof.Machine.execRspDirectoryMore len data cks s
  | .rspGeneric12 len data cks => Sys2Proof.Machine.execRspGeneric12 len data cks s
  | .rspDriveCondition len data cks => Sys2Proof.Machine.execRspDriveCondition len data cks s

end Sys2Proof.Machine
end

