-- ==== Sys2Proof/WellFormed.lean ====
section
/-! DEFINITION. Which terms of `Instr` are instances of their row. Only the response rows can fail:
their length byte counts the data bytes (spec/30_encoding.md R83, R92). -/

namespace Sys2Proof

/-- The length byte of a frame is "the byte count of `data` only" (R83). -/
def lengthAgrees (len : Byte) (data : List Byte) : Bool :=
  data.length == len.toNat

/-- The operands are ones the row admits. -/
def Instr.wellFormed (i : Instr) : Bool :=
  match i with
  | .rspReadFileMore len data _ => lengthAgrees len data
  | .rspDirectoryMore len data _ => lengthAgrees len data
  | .rspGeneric12 len data _ => lengthAgrees len data
  | .rspDriveCondition len data _ => lengthAgrees len data
  | .rst | .setPre _ | .rd _ | .csClr | .csPut _ | .nmClr | .nmPut _ | .encSimple _ _
  | .encDir _ | .rx _ | .rxEnd | .driveStatus | .driveStatusCr | .driveCondition | .close
  | .format | .formatCr | .erase | .dirRef | .dirFirst | .dirNext | .dirPrev | .dirEnd => true

end Sys2Proof
end

