-- ==== Sys2Proof/Decode.lean ====
section
/-! DEFINITION. The frame rows of spec/opcode_table.json as masks and patterns (spec/30_encoding.md
R101), the decoder of frame bytes, and the encoder. The eleven operations have no bit encoding
(R100): no bytes decode to one, and `encode` answers none for one. -/

namespace Sys2Proof

/-- The format of a frame row (R101) with what its row stands for. -/
inductive FrameFormat where
  | cmd0 (i : Instr)
  | cmd0t (i : Instr)
  | cmddir (i : Instr)
  | rsp (k : Kind)
deriving DecidableEq, Repr

/-- A frame row: `match` and `mask`, byte 0 first (R101). -/
structure FrameRow where
  format  : FrameFormat
  pattern : List Byte
  mask    : List Byte
deriving DecidableEq, Repr

/-- `(f[i] AND mask[i]) == match[i]` for every byte the row covers (R101). -/
def matchesBytes : List Byte → List Byte → List Byte → Bool
  | p :: ps, m :: ms, f :: fs => (f &&& m == p) && matchesBytes ps ms fs
  | [], _, _ => true
  | _ :: _, _, _ => false

/-- The bytes begin with an instance of the row's pattern (R101). -/
def FrameRow.covers (r : FrameRow) (f : List Byte) : Bool :=
  matchesBytes r.pattern r.mask f

/-- A CMD0 row: the whole frame is constant. -/
def cmd0Row (i : Instr) (t cks : Byte) : FrameRow :=
  ⟨.cmd0 i, [0x5A, 0x5A, t, 0x00, cks], List.replicate 5 0xFF⟩

/-- A CMD0T row: the whole frame and its trailer are constant. -/
def cmd0tRow (i : Instr) (t cks : Byte) : FrameRow :=
  ⟨.cmd0t i, [0x5A, 0x5A, t, 0x00, cks, 0x0D], List.replicate 6 0xFF⟩

/-- A CMDDIR row: the filename and the checksum byte are fields, mask 00. -/
def cmddirRow (i : Instr) (sf : Byte) : FrameRow :=
  ⟨.cmddir i,
    [0x5A, 0x5A, 0x00, 0x1A] ++ List.replicate 24 0x00 ++ [0x46, sf, 0x00],
    List.replicate 4 0xFF ++ List.replicate 24 0x00 ++ [0xFF, 0xFF, 0x00]⟩

/-- An RSP row: byte 0 only. -/
def rspRow (k : Kind) (code : Byte) : FrameRow :=
  ⟨.rsp k, [code], [0xFF]⟩

/-- The sixteen frame rows. The CMD0T rows stand before the CMD0 rows, so that the longer of two
matching rows is read (DESIGN CHOICE, log entry 14: safe). -/
def frameRows : List FrameRow :=
  [ cmd0tRow .driveStatusCr 0x07 0xF8,
    cmd0tRow .formatCr 0x06 0xF9,
    cmd0Row .driveStatus 0x07 0xF8,
    cmd0Row .driveCondition 0x0C 0xF3,
    cmd0Row .close 0x02 0xFD,
    cmd0Row .format 0x06 0xF9,
    cmd0Row .erase 0x05 0xFA ] ++
  [ cmddirRow .dirRef 0x00,
    cmddirRow .dirFirst 0x01,
    cmddirRow .dirNext 0x02,
    cmddirRow .dirPrev 0x03,
    cmddirRow .dirEnd 0x04 ] ++
  [ rspRow .readFileMore 0x10,
    rspRow .directoryMore 0x11,
    rspRow .generic12 0x12,
    rspRow .driveCondition 0x15 ]

/-- What the decoder reads: the row's instruction, the row's fields that the instruction does not
carry (the filename and the checksum byte of a CMDDIR frame), and the bytes after the frame. -/
structure Decoded where
  instr : Instr
  /-- the 24 filename bytes of a CMDDIR frame, empty for every other row -/
  name  : List Byte
  /-- the frame's checksum byte -/
  cks   : Byte
  /-- the bytes after the frame -/
  rest  : List Byte
deriving DecidableEq, Repr

/-- Why bytes are no frame of the table. -/
inductive DecodeError where
  /-- no row's pattern covers the bytes -/
  | noRow
  /-- a response row whose declared length reaches past the last byte (R97) -/
  | cutShort
deriving DecidableEq, Repr

/-- The instruction of a response row. -/
def rspInstr (k : Kind) (len : Byte) (data : List Byte) (cks : Byte) : Instr :=
  match k with
  | .readFileMore => .rspReadFileMore len data cks
  | .directoryMore => .rspDirectoryMore len data cks
  | .generic12 => .rspGeneric12 len data cks
  | .driveCondition => .rspDriveCondition len data cks

/-- The frame of a response row, by the length rule (R97): type, length `n`, `n` data bytes, one
checksum byte. The checksum byte is read, not tested (log entry 13). -/
def decodeRsp (k : Kind) (f : List Byte) : Except DecodeError Decoded :=
  match f with
  | _ :: len :: body =>
    match body.drop len.toNat with
    | cks :: rest => .ok ⟨rspInstr k len (body.take len.toNat) cks, [], cks, rest⟩
    | [] => .error .cutShort
  | _ => .error .cutShort

/-- The fields of a row whose pattern covers the bytes. -/
def decodeRow (r : FrameRow) (f : List Byte) : Except DecodeError Decoded :=
  match r.format with
  | .cmd0 i => .ok ⟨i, [], f.getD 4 0, f.drop 5⟩
  | .cmd0t i => .ok ⟨i, [], f.getD 4 0, f.drop 6⟩
  | .cmddir i => .ok ⟨i, (f.drop 4).take 24, f.getD 30 0, f.drop 31⟩
  | .rsp k => decodeRsp k f

/-- The decoder: total on any bytes, rejecting by name. -/
def decode (f : List Byte) : Except DecodeError Decoded :=
  match frameRows.find? (fun r => r.covers f) with
  | some r => decodeRow r f
  | none => .error .noRow

/-- The search form of a directory row (R89, R155 to R159). -/
def Instr.searchForm (i : Instr) : Option SearchForm :=
  match i with
  | .dirRef => some .ref
  | .dirFirst => some .first
  | .dirNext => some .next
  | .dirPrev => some .prev
  | .dirEnd => some .endRef
  | .rst | .setPre _ | .rd _ | .csClr | .csPut _ | .nmClr | .nmPut _ | .encSimple _ _
  | .encDir _ | .rx _ | .rxEnd | .driveStatus | .driveStatusCr | .driveCondition | .close
  | .format | .formatCr | .erase | .rspReadFileMore _ _ _ | .rspDirectoryMore _ _ _
  | .rspGeneric12 _ _ _ | .rspDriveCondition _ _ _ => none

/-- The decoded fields are an instance of the row. For a directory row this is R101's second
condition: the checksum byte equals the checksum of the bytes R85 names. For the constant rows the
pattern says it already, and a response row covers byte 0 alone, whatever its checksum byte (R101,
R209; log entry 13). -/
def Decoded.isInstance (d : Decoded) : Bool :=
  match d.instr.searchForm with
  | some sf => d.cks == checksum (directoryBody sf.code d.name)
  | none => d.instr.wellFormed

/-- The bytes of a directory row's frame with a filename; none for a name of more than 24 bytes,
which has no encoding (R90). -/
def encodeDir (sf : Byte) (name : List Byte) : Option (List Byte) :=
  if name.length ≤ 24 then
    some ([0x5A, 0x5A, 0x00, 0x1A] ++ padName name ++ [0x46, sf]
      ++ [checksum ([0x00, 0x1A] ++ padName name ++ [0x46, sf])])
  else none

/-- The bytes of a response row's frame (R92). -/
def encodeRsp (code len : Byte) (data : List Byte) (cks : Byte) : List Byte :=
  code :: len :: (data ++ [cks])

/-- The encoder, from the frame tables of spec/30_encoding.md and the literals of R148 to R159. `name`
is the implicit operand of the directory rows, the filename; the other rows do not look at it. -/
def encode (i : Instr) (name : List Byte) : Option (List Byte) :=
  match i with
  | .driveStatus => some [0x5A, 0x5A, 0x07, 0x00, 0xF8]
  | .driveStatusCr => some [0x5A, 0x5A, 0x07, 0x00, 0xF8, 0x0D]
  | .driveCondition => some [0x5A, 0x5A, 0x0C, 0x00, 0xF3]
  | .close => some [0x5A, 0x5A, 0x02, 0x00, 0xFD]
  | .format => some [0x5A, 0x5A, 0x06, 0x00, 0xF9]
  | .formatCr => some [0x5A, 0x5A, 0x06, 0x00, 0xF9, 0x0D]
  | .erase => some [0x5A, 0x5A, 0x05, 0x00, 0xFA]
  | .dirRef => encodeDir 0x00 name
  | .dirFirst => encodeDir 0x01 name
  | .dirNext => encodeDir 0x02 name
  | .dirPrev => encodeDir 0x03 name
  | .dirEnd => encodeDir 0x04 name
  | .rspReadFileMore len data cks => some (encodeRsp 0x10 len data cks)
  | .rspDirectoryMore len data cks => some (encodeRsp 0x11 len data cks)
  | .rspGeneric12 len data cks => some (encodeRsp 0x12 len data cks)
  | .rspDriveCondition len data cks => some (encodeRsp 0x15 len data cks)
  | .rst | .setPre _ | .rd _ | .csClr | .csPut _ | .nmClr | .nmPut _ | .encSimple _ _
  | .encDir _ | .rx _ | .rxEnd => none

/-- The longest frame of the table: a response frame with 255 data bytes (R83). -/
def longestFrame : Nat := 258

/-- The bytes of an instruction whose bits are `w`, byte 0 the least significant, every bit from
`nbits` up zero, as far as the longest frame reaches (log entry 15). -/
def wordBytes (nbits w : Nat) : List Byte :=
  (List.range longestFrame).map (fun k => BitVec.ofNat 8 ((w % 2 ^ nbits) >>> (8 * k)))

/-- The instruction the decoder reads from a table word. -/
def decodeTableWord (nbits w : Nat) : Option Instr :=
  match decode (wordBytes nbits w) with
  | .ok d => some d.instr
  | .error _ => none

end Sys2Proof
end

