-- ==== Sys2Proof/Machine/Fetch.lean ====
section
/-! DEFINITION. Taking the next event the host has presented, recording what it did, and presenting a
frame's operation (spec/20_memory.md R69, R73; log entries 1, 2, 11 and 16). -/

namespace Sys2Proof.Machine

/-- The next presented event and the machine about to process it; the outputs of the step before are
gone (R258). None where nothing is presented. -/
def nextEvent (s : State) : Option (Instr × State) :=
  match s.input with
  | [] => none
  | i :: rest => some (i, { s with input := rest, output := [] })

/-- A step with no event presented: the block is idle and all its state is kept (R238). -/
def idle (s : State) : State := { s with output := [] }

/-- The record of the run grows by the event and its outputs (R73). -/
def recordEvent (i : Instr) (o : Host.Outcome State Fault Refusal) :
    Host.Outcome State Fault Refusal :=
  match o with
  | .next t => .next { t with history := t.history ++ [⟨i, t.output⟩] }
  | .fault f => .fault f
  | .refused r => .refused r

/-- The block with a filename of at most 24 bytes loaded, as `NM_CLR` and one `NM_PUT` per byte leave
`NLEN` and those entries of `NBUF` (R143, R144). -/
def loadName (name : List Byte) (b : Block) : Block :=
  { b with nlen := BitVec.ofNat 5 name.length,
           nbuf := name.zipIdx.foldl (fun m e => m.write e.2 e.1) b.nbuf }

/-- Present a decoded frame's operation as the very next event. A directory row works on the filename
currently loaded (R99), so the filename field of its frame is loaded with it (log entry 11). -/
def present (d : Decoded) (s : State) : State :=
  match d.instr.searchForm with
  | some _ => { s with input := d.instr :: s.input, block := loadName d.name s.block }
  | none => { s with input := d.instr :: s.input }

/-- Present the operation that the bytes name; bytes that are no frame of the table name none. -/
def presentBytes (f : List Byte) (s : State) : State :=
  match decode f with
  | .ok d => present d s
  | .error _ => s

end Sys2Proof.Machine
end

