-- ==== Sys2Proof/Machine/Step.lean ====
section
/-! DEFINITION. One step of the machine: one event, processed to completion (spec/20_memory.md R65,
R69). -/

namespace Sys2Proof.Machine

/-- Process the next event the host has presented; with none presented, stay idle. -/
def step (s : State) : Host.Outcome State Fault Refusal :=
  match nextEvent s with
  | some (i, s') => recordEvent i (exec i s')
  | none => .next (idle s)

/-- The machine with the operation of a table word presented, so that the very next step runs it. -/
def State.withFetchWord (s : State) (nbits w : Nat) : State :=
  presentBytes (wordBytes nbits w) s

end Sys2Proof.Machine
end

