-- ==== Sys2Proof/Safety.lean ====
section
/-! DEFINITION. The terms claims use: the invariant of spec/10_state.md R44, running a trace of
operations (spec/20_memory.md R69), what a trace loads (spec/40_checksum.md R128, spec/41_encoder.md
R147), the parser as a function of the buffer (spec/42_parser.md R182, R183), the phase table (R187)
and the operation classes (spec/20_memory.md R70). -/

namespace Sys2Proof.Machine

/-- The first `n` entries of a memory, in order; none where one of them holds no value. -/
def Memory.firstFrom (m : Memory) (i : Nat) : Nat → Option (List Byte)
  | 0 => some []
  | n + 1 =>
    match m.read i, m.firstFrom (i + 1) n with
    | some v, some vs => some (v :: vs)
    | _, _ => none

/-- `DBUF[0..CNT-1]` (R36, R181), where every one of those entries holds a value. -/
def Block.dataHeld (b : Block) : Option (List Byte) := b.dbuf.firstFrom 0 b.cnt.toNat

/-- `NBUF[0..min(NLEN, 24)-1]` (R37, R38), where every one of those entries holds a value. -/
def Block.nameHeld (b : Block) : Option (List Byte) := b.nbuf.firstFrom 0 (min b.nlen.toNat 24)

/-- The invariant of R44: (I1) to (I10), with what the model adds about the buffers (their canonical
form, and that the entries a rule reads hold a value) and about the reserved bits of `CTRL` (R23).
(I11) speaks of the bytes of the buffer in progress, which are no state; it is what
`Obligations.ResultClassifiesByteZero` states of whole buffers. -/
structure Block.Inv (b : Block) : Prop where
  gotIffBusy : b.phase = .idle ↔ b.got = false
  idleClear : b.phase = .idle →
    b.pm = false ∧ b.type = 0 ∧ b.len = 0 ∧ b.cnt = 0 ∧ b.pacc = 0 ∧ b.rck = 0 ∧ b.code = 0 ∧
    b.skip = false ∧ b.trail = false ∧ b.ckok = false
  rspPhases : b.pm = false →
    (b.phase = .idle ∨ b.phase = .len ∨ b.phase = .data ∨ b.phase = .cks ∨ b.phase = .done) ∧
    b.skip = false
  beforeType : b.phase = .hunt ∨ b.phase = .pre2 ∨ b.phase = .type →
    b.pacc = 0 ∧ b.type = 0 ∧ b.len = 0 ∧ b.cnt = 0 ∧ b.rck = 0
  atLength : b.phase = .len → b.pacc.toNat = b.type.toNat ∧ b.cnt = 0
  inData : b.phase = .data → 1 ≤ b.len.toNat ∧ b.cnt.toNat < b.len.toNat
  afterData : b.phase = .cks ∨ b.phase = .done → b.cnt = b.len
  sumHeld : ∃ data, b.dataHeld = some data ∧
    (b.phase = .data ∨ b.phase = .cks ∨ b.phase = .done →
      b.pacc.toNat = b.type.toNat + b.len.toNat + byteSum data)
  doneFlags : (b.trail = true ∨ b.ckok = true → b.phase = .done) ∧
    (b.phase = .done → b.ckok = (b.rck == b.xck))
  nlenBound : b.nlen.toNat ≤ 25
  nameKept : ∃ name, b.nameHeld = some name
  dbufWf : Memory.wf Config.dbufN b.dbuf
  nbufWf : Memory.wf Config.nbufN b.nbuf
  reservedZero : b.ctrl &&& 0xFE#8 = 0

/-- The machine has been reset and its block meets R44. -/
def State.Inv (s : State) : Prop := s.launched = true ∧ s.block.Inv

/-- The block is quiescent: no buffer is in progress (spec/70_reset_and_hazards.md R261). -/
def State.quiescent (s : State) : Prop := s.block.phase = .idle

/-- Operations one after another, each to completion (R69). -/
def runTrace : List Instr → State → Host.Outcome State Fault Refusal
  | [], s => .next s
  | i :: is, s =>
    match exec i s with
    | .next t => runTrace is t
    | .fault f => .fault f
    | .refused r => .refused r

/-- The observation of a run: its output events in order (R73, R261). -/
def State.observation (s : State) : List OutEvent := s.history.flatMap (fun e => e.outs)

/-- The bytes put on the CS port since the last `CS_CLR` or `RST` (R128), those put before being
`held`. -/
def bytesPut (held : List Byte) : List Instr → List Byte
  | [] => held
  | .csClr :: is => bytesPut [] is
  | .rst :: is => bytesPut [] is
  | .csPut v :: is => bytesPut (held ++ [v]) is
  | _ :: is => bytesPut held is

/-- The filename bytes offered since the last `NM_CLR` or `RST` (R147), those offered before being
`held`. -/
def nameOffered (held : List Byte) : List Instr → List Byte
  | [] => held
  | .nmClr :: is => nameOffered [] is
  | .rst :: is => nameOffered [] is
  | .nmPut v :: is => nameOffered (held ++ [v]) is
  | _ :: is => nameOffered held is

/-- The output event of `ENC_DIR` for what `buildDirectoryCommand` answers (R147). -/
def directoryReply (sf : Byte) (name : List Byte) : OutEvent :=
  match buildDirectoryCommand sf name with
  | .ok frame => .txf frame
  | .error e => .err e

/-- What R182 (b) and (c) say of the bytes from a frame's type byte on; no byte at all is the format-F
case of R183 (b) in which the buffer ended right after the preamble. -/
def frameResult (cls : Classification) (pm skip : Bool) (frame : List Byte) : Res :=
  match frame with
  | [] =>
    { cls, prs := .truncated, pm, phase := .type, type := 0, len := 0, cnt := 0, data := [],
      rck := 0, xck := 0xFF, kind := .miss, skip, trail := false }
  | [t] =>
    { cls, prs := .truncated, pm, phase := .len, type := t, len := 0, cnt := 0, data := [],
      rck := 0, xck := checksum [t], kind := dispatch t, skip, trail := false }
  | t :: n :: body =>
    match body.drop n.toNat with
    | [] =>
      { cls, prs := .truncated, pm, phase := if body.length < n.toNat then .data else .cks,
        type := t, len := n, cnt := BitVec.ofNat 8 body.length, data := body,
        rck := 0, xck := checksum (t :: n :: body), kind := dispatch t, skip, trail := false }
    | c :: after =>
      { cls, prs := if c = checksum (t :: n :: body.take n.toNat) then .frameOK else .checksumMismatch,
        pm, phase := .done, type := t, len := n, cnt := n, data := body.take n.toNat,
        rck := c, xck := checksum (t :: n :: body.take n.toNat), kind := dispatch t,
        skip, trail := !after.isEmpty }

/-- A record with every parser register at its cleared value (R179). -/
def noFrameResult (cls : Classification) (pm : Bool) (phase : Phase) (skip : Bool) : Res :=
  { cls, prs := .noFrame, pm, phase, type := 0, len := 0, cnt := 0, data := [], rck := 0,
    xck := 0xFF, kind := .miss, skip, trail := false }

/-- The `RES` record of a buffer delivered in format RSP (R182). -/
def rspResult (buffer : List Byte) : Res :=
  match buffer with
  | [] => noFrameResult .empty false .idle false
  | _ :: _ => frameResult (classify buffer) false false buffer

/-- The least index at which two preamble bytes stand, and the bytes after them (R183). -/
def findPreamble : List Byte → Option (Nat × List Byte)
  | a :: b :: rest =>
    if a = 0x5A ∧ b = 0x5A then some (0, rest)
    else (findPreamble (b :: rest)).map (fun p => (p.1 + 1, p.2))
  | _ => none

/-- The phase a format-F buffer without a preamble ends in (R183 (a)). -/
def phaseWithoutPreamble (buffer : List Byte) : Phase :=
  match buffer.getLast? with
  | none => .idle
  | some v => if v = 0x5A then .pre2 else .hunt

/-- The `RES` record of a buffer delivered in format F (R183). -/
def formatFResult (buffer : List Byte) : Res :=
  match findPreamble buffer with
  | none =>
    noFrameResult (classify buffer) true (phaseWithoutPreamble buffer) (buffer.any (· ≠ 0x5A))
  | some (i, frame) => frameResult (classify buffer) true (decide (i > 0)) frame

/-- The `RES` record of a buffer delivered in the given mode (R182, R183). -/
def bufferResult (pre : Bool) (buffer : List Byte) : Res :=
  if pre then formatFResult buffer else rspResult buffer

/-- The operations that deliver a buffer: `RX` of each byte, then `RX_END` (R99 `classify(buf)`). -/
def delivery (buffer : List Byte) : List Instr :=
  buffer.map .rx ++ [.rxEnd]

/-- The transition table of `PHASE` on `RX(v)` (R187). -/
def nextPhase (b : Block) (v : Byte) : Phase :=
  match b.phase with
  | .idle => if b.pre then (if v = 0x5A then .pre2 else .hunt) else .len
  | .hunt => if v = 0x5A then .pre2 else .hunt
  | .pre2 => if v = 0x5A then .type else .hunt
  | .type => .len
  | .len => if v = 0 then .cks else .data
  | .data => if b.cnt + 1 = b.len then .cks else .data
  | .cks => .done
  | .done => .done

/-- The three classes of operations of R70. -/
inductive OpClass where
  | cs | en | rxp
deriving DecidableEq, Repr

/-- The class an operation belongs to (R70). A named command row is in the class of the encoder
operation it stands for, and a response row in that of `RX` and `RX_END` (R99). `RD(STAT)` and `RST`
are in none. -/
def opClass (i : Instr) : Option OpClass :=
  match i with
  | .csClr | .csPut _ | .rd .csum => some .cs
  | .nmClr | .nmPut _ | .encSimple _ _ | .encDir _ | .rd .nlen => some .en
  | .driveStatus | .driveStatusCr | .driveCondition | .close | .format | .formatCr | .erase
  | .dirRef | .dirFirst | .dirNext | .dirPrev | .dirEnd => some .en
  | .rx _ | .rxEnd | .setPre _ | .rd .ctrl | .rd .phase | .rd .type | .rd .len | .rd .cnt
  | .rd .rck | .rd .xck | .rd .code => some .rxp
  | .rspReadFileMore _ _ _ | .rspDirectoryMore _ _ _ | .rspGeneric12 _ _ _
  | .rspDriveCondition _ _ _ => some .rxp
  | .rd .stat | .rst => none

end Sys2Proof.Machine
end

