-- ==== Sys2Proof/Certificates/Slice0/Obligations.lean ====
section
/-! DEFINITION. The statements for the provers, from the numbered rules of spec/. -/

open Sys2Proof Sys2Proof.Machine

/-! ### Encoding -/

/-- Words written out from spec/30_encoding.md R86 to R92 and R148 to R156 decode to their rows; the
source's wrong literal `5A 5A 0C 00 F2` (C1) is no frame of the table. -/
def Obligations.SampleWordsDecode : Prop :=
  decodeTableWord 40 0xF800075A5A = some .driveStatus ∧
  decodeTableWord 48 0x0DF800075A5A = some .driveStatusCr ∧
  decodeTableWord 40 0xF3000C5A5A = some .driveCondition ∧
  decodeTableWord 40 0xF2000C5A5A = none ∧
  decodeTableWord 48 0x0DF900065A5A = some .formatCr ∧
  decodeTableWord 248 0x9E01462020202020202020202020202020202020202020202020201A005A5A = some .dirFirst ∧
  decodeTableWord 32 0xEC000112 = some (.rspGeneric12 0x01 [0x00] 0xEC) ∧
  decodeTableWord 8 0x99 = none

/-- Decode and encode agree, for every frame row, every filename the encoding admits, every response
operand, and whatever bytes follow; only a `0D` after `DRIVE_STATUS` or `FORMAT` is read as the
longer row's trailer (log entry 14). -/
def Obligations.DecodeReadsEncodedFrame : Prop :=
  ∀ (i : Instr) (name frame rest : List Byte), i.wellFormed = true → encode i name = some frame →
    (i = .driveStatus ∨ i = .format → rest.head? ≠ some 0x0D) →
    ∃ d, decode (frame ++ rest) = .ok d ∧ d.instr = i ∧ d.rest = rest ∧ d.isInstance = true ∧
      d.name = (if i.searchForm.isSome then padName name else [])

/-- What the decoder reads from an instance of a row encodes back to the bytes it was read from. -/
def Obligations.EncodeRestoresDecodedBytes : Prop :=
  ∀ (f : List Byte) (d : Decoded), decode f = .ok d → d.isInstance = true →
    ∃ frame, encode d.instr d.name = some frame ∧ f = frame ++ d.rest

/-- Two different frame rows of the same width match no common bytes (R101). -/
def Obligations.RowsOfOneWidthDoNotOverlap : Prop :=
  ∀ (r q : FrameRow) (f : List Byte), r ∈ frameRows → q ∈ frameRows →
    r.pattern.length = q.pattern.length → r.covers f = true → q.covers f = true → r = q

/-- The eleven operations have no bit encoding (R100): no bytes decode to one of them. -/
def Obligations.NoBytesDecodeToAnOperation : Prop :=
  ∀ (f : List Byte) (d : Decoded), decode f = .ok d →
    d.instr ∉ [Instr.rst, .csClr, .nmClr, .rxEnd] ∧ (∀ v, d.instr ≠ .setPre v) ∧
    (∀ r, d.instr ≠ .rd r) ∧ (∀ v, d.instr ≠ .csPut v) ∧ (∀ v, d.instr ≠ .nmPut v) ∧
    (∀ t x, d.instr ≠ .encSimple t x) ∧ (∀ v, d.instr ≠ .encDir v) ∧ (∀ v, d.instr ≠ .rx v)

/-! ### The checksum function -/

/-- Accumulator width does not matter above 8 bits (R121), for the sum and for a register that wraps. -/
def Obligations.ChecksumWidthIrrelevant : Prop :=
  ∀ (w : Nat) (bs : List Byte), 8 ≤ w →
    (byteSum bs % 2 ^ w) % 256 = byteSum bs % 256 ∧
    BitVec.ofNat 8 ((bs.foldl (fun (a : BitVec w) v => a + v.zeroExtend w) 0).toNat % 256) ^^^ 0xFF#8
      = checksum bs

/-- The arithmetic laws (a) to (f) of R124. -/
def Obligations.ChecksumArithmeticLaws : Prop :=
  (∀ x : Byte, (x ^^^ 0xFF#8).toNat = 255 - x.toNat) ∧
  (∀ bs, (checksum bs).toNat = 255 - byteSum bs % 256) ∧
  (∀ bs, (checksum bs).toNat ≤ 255) ∧
  (∀ (bs : List Byte) (c : Byte), (c = checksum bs ↔ (byteSum bs + c.toNat) % 256 = 255) ∧
    (c = checksum bs ↔ checksum (bs ++ [c]) = 0x00)) ∧
  (∀ x : Byte, checksum [x] = x ^^^ 0xFF#8) ∧
  checksum [0x80, 0x80] = 0xFF ∧
  (∀ k : Nat, 1 ≤ k → (checksum (List.replicate k 0xFF)).toNat = (k - 1) % 256)

/-- The structural laws (a) to (d) of R129, and the insertions and swaps of (e) it cannot detect. -/
def Obligations.ChecksumStructuralLaws : Prop :=
  (∀ as bs : List Byte, byteSum as % 256 = byteSum bs % 256 → checksum as = checksum bs) ∧
  (∀ as bs : List Byte, as.Perm bs → checksum as = checksum bs) ∧
  (∀ as bs : List Byte, checksum (as ++ 0x00 :: bs) = checksum (as ++ bs)) ∧
  (∀ as bs : List Byte, checksum (as ++ bs) =
    BitVec.ofNat 8 ((255 - (checksum as).toNat + byteSum bs) % 256) ^^^ 0xFF#8)

/-! ### The CS port -/

/-- `CS_CLR` (R125) writes `ACC` only. -/
def Obligations.CsClrClearsOnlyAcc : Prop :=
  ∀ s : State, s.launched = true →
    exec .csClr s = .next { s with block := { s.block with acc := 0 } }

/-- `CS_PUT(b)` (R126) adds the byte to `ACC` modulo 2^`ACC_W` and writes nothing else. R9 leaves `ACC_W`
open from 8 bits up; that it is 32, R9's default, is the model's choice (log entry 4). -/
def Obligations.CsPutAddsOnlyToAcc : Prop :=
  ∀ (v : Byte) (s : State), s.launched = true →
    ∃ t, exec (.csPut v) s = .next t ∧
      t.block.acc.toNat = (s.block.acc.toNat + v.toNat) % 2 ^ 32 ∧
      t = { s with block := { s.block with acc := t.block.acc } }

/-- At any moment `CSUM` is the checksum of the bytes put since the last `CS_CLR` or `RST`, whatever
other operations come between; and the operations of ENC, PKT and DSP do the same, and emit the same,
whatever `ACC` holds (R128). -/
def Obligations.CsumFollowsBytesPut : Prop :=
  (∀ (ops : List Instr) (s : State), s.Inv →
    ∃ t, runTrace (.csClr :: ops) s = .next t ∧
      exec (.rd .csum) t =
        .next { t with output := t.output ++ [.rdval (checksum (bytesPut [] ops))] }) ∧
  (∀ (i : Instr) (s : State), s.Inv → opClass i = some .en ∨ opClass i = some .rxp →
    ∃ (b : Block) (outs : List OutEvent), ∀ acc,
      exec i { s with block := { s.block with acc := acc } } =
        .next { s with block := { b with acc := acc }, output := s.output ++ outs })

/-! ### The encoder -/

/-- `NM_CLR` (R143) writes `NLEN` only. -/
def Obligations.NmClrClearsOnlyNlen : Prop :=
  ∀ s : State, s.launched = true →
    exec .nmClr s = .next { s with block := { s.block with nlen := 0 } }

/-- `NM_PUT(b)` (R144): with fewer than 24 bytes held it stores at `NBUF[NLEN]` and counts; else `NLEN`
becomes 25 and the byte is discarded. Every other entry and every other field is as before. -/
def Obligations.NmPutAppendsOrSaturates : Prop :=
  ∀ (v : Byte) (s : State), s.launched = true →
    ∃ t, exec (.nmPut v) s = .next t ∧
      (if s.block.nlen.toNat < 24 then
        t.block.nlen.toNat = s.block.nlen.toNat + 1 ∧
        ∀ a, t.block.nbuf.read a =
          if a = s.block.nlen.toNat then some v else s.block.nbuf.read a
      else t.block.nlen.toNat = 25 ∧ t.block.nbuf = s.block.nbuf) ∧
      t = { s with block := { s.block with nlen := t.block.nlen, nbuf := t.block.nbuf } }

/-- `ENC_SIMPLE(t, trail)` (R145, R160): the five bytes, the trailer after them when asked for, for
every code; no state written. -/
def Obligations.EncSimpleEmitsFrame : Prop :=
  ∀ (t : Byte) (trail : Bool) (s : State), s.launched = true →
    exec (.encSimple t trail) s = .next { s with output := s.output ++
      [.txf ([0x5A, 0x5A, t, 0x00, t ^^^ 0xFF#8] ++ if trail then [0x0D] else [])] }

/-- The seven named simple commands (R148 to R154) emit exactly their literal bytes, the ones the table
encodes, and write nothing. -/
def Obligations.NamedSimpleCommandsEmitLiterals : Prop :=
  ∀ (i : Instr) (frame : List Byte) (s : State), s.launched = true →
    (i, frame) ∈ [
      (Instr.driveStatus, [0x5A, 0x5A, 0x07, 0x00, 0xF8]),
      (.driveStatusCr, [0x5A, 0x5A, 0x07, 0x00, 0xF8, 0x0D]),
      (.driveCondition, [0x5A, 0x5A, 0x0C, 0x00, 0xF3]),
      (.close, [0x5A, 0x5A, 0x02, 0x00, 0xFD]),
      (.format, [0x5A, 0x5A, 0x06, 0x00, 0xF9]),
      (.formatCr, [0x5A, 0x5A, 0x06, 0x00, 0xF9, 0x0D]),
      (.erase, [0x5A, 0x5A, 0x05, 0x00, 0xFA])] →
    exec i s = .next { s with output := s.output ++ [.txf frame] }

/-- `ENC_DIR(sf)` (R146, R230): `InvalidFilename` first, then `BadSearchForm`, else the 31-byte frame of
the filename held; no state written on any path. -/
def Obligations.EncDirRepliesInOrder : Prop :=
  ∀ (sf : Byte) (s : State), s.launched = true →
    (s.block.nlen.toNat = 25 →
      exec (.encDir sf) s = .next { s with output := s.output ++ [.err .invalidFilename] }) ∧
    (s.block.nlen.toNat ≤ 24 → sf.toNat > 4 →
      exec (.encDir sf) s = .next { s with output := s.output ++ [.err .badSearchForm] }) ∧
    (∀ name, s.block.nlen.toNat ≤ 24 → sf.toNat ≤ 4 → s.block.nameHeld = some name →
      name.length = s.block.nlen.toNat ∧
      exec (.encDir sf) s = .next { s with output := s.output ++
        [.txf ([0x5A, 0x5A] ++
          ([0x00, 0x1A] ++ name ++ List.replicate (24 - name.length) 0x20 ++ [0x46, sf]) ++
          [checksum ([0x00, 0x1A] ++ name ++ List.replicate (24 - name.length) 0x20 ++ [0x46, sf])])] })

/-- The five directory rows (R155 to R159) work on the filename currently loaded: the error of an
over-long one, else the frame with the row's search form and the checksum of R161's closed form. -/
def Obligations.DirectoryRowsEncodeLoadedName : Prop :=
  ∀ (i : Instr) (sf : Byte) (s : State), s.launched = true →
    (i, sf) ∈ [(Instr.dirRef, 0x00#8), (.dirFirst, 0x01#8), (.dirNext, 0x02#8), (.dirPrev, 0x03#8),
      (.dirEnd, 0x04#8)] →
    (s.block.nlen.toNat = 25 →
      exec i s = .next { s with output := s.output ++ [.err .invalidFilename] }) ∧
    (∀ name, s.block.nlen.toNat ≤ 24 → s.block.nameHeld = some name →
      exec i s = .next { s with output := s.output ++
        [.txf ([0x5A, 0x5A, 0x00, 0x1A] ++ name ++ List.replicate (24 - name.length) 0x20 ++
          [0x46, sf, BitVec.ofNat 8
            ((96 + byteSum name + 32 * (24 - name.length) + sf.toNat) % 256) ^^^ 0xFF#8])] })

/-- The encoder's operations write no register, flag or buffer, and what they emit depends on the
filename alone: two machines that hold the same filename get the same output (R142). The named command
rows are taken as the R99 expansions they stand for (log entry 10, the model's reading). -/
def Obligations.EncodersArePure : Prop :=
  ∀ (i : Instr) (s s' : State),
    (∃ t x, i = .encSimple t x) ∨ (∃ sf, i = .encDir sf) ∨
      i ∈ [Instr.driveStatus, .driveStatusCr, .driveCondition, .close, .format, .formatCr, .erase,
        .dirRef, .dirFirst, .dirNext, .dirPrev, .dirEnd] →
    s.Inv → s'.launched = true → s'.block.nlen = s.block.nlen → s'.block.nbuf = s.block.nbuf →
    ∃ o, exec i s = .next { s with output := s.output ++ [o] } ∧
      exec i s' = .next { s' with output := s'.output ++ [o] }

/-- The operations are the source's functions (R147): `ENC_SIMPLE` is `buildSimpleCommand`, and loading a
filename and encoding it is `buildDirectoryCommand`, with any operations of any class between; a
later `NM_CLR` or `RST` among them starts the filename afresh. -/
def Obligations.FilenameTraceBuildsCommand : Prop :=
  (∀ (t : Byte) (s : State), s.launched = true →
    exec (.encSimple t false) s =
      .next { s with output := s.output ++ [.txf (buildSimpleCommand t)] } ∧
    exec (.encSimple t true) s =
      .next { s with output := s.output ++ [.txf (buildSimpleCommand t ++ [0x0D])] }) ∧
  ∀ (ops : List Instr) (sf : Byte) (s : State), s.Inv →
    ∃ t, runTrace (.nmClr :: ops) s = .next t ∧
      t.block.nlen.toNat = min (nameOffered [] ops).length 25 ∧
      exec (.encDir sf) t =
        .next { t with output := t.output ++ [directoryReply sf (nameOffered [] ops)] }

/-- Overflow is sticky (R255, R221): with `NLEN` = 25, every `ENC_DIR` after any operations but
`NM_CLR` and `RST` fails with `InvalidFilename`. -/
def Obligations.FilenameOverflowIsSticky : Prop :=
  ∀ (ops : List Instr) (sf : Byte) (s : State), s.Inv → s.block.nlen.toNat = 25 →
    Instr.nmClr ∉ ops → Instr.rst ∉ ops →
    ∃ t, runTrace ops s = .next t ∧
      exec (.encDir sf) t = .next { t with output := t.output ++ [.err .invalidFilename] }

/-! ### The parser, arm by arm -/

/-- `RX(b)` on the first byte of a buffer (R171): the latches, then the arm the mode selects (R172,
R174). -/
def Obligations.RxBeginsBuffer : Prop :=
  ∀ (v : Byte) (s : State), s.launched = true → s.block.phase = .idle →
    (s.block.pre = false → exec (.rx v) s = .next { s with block := { s.block with
      got := true, code := v, pm := false, type := v, pacc := v.zeroExtend 16, phase := .len } }) ∧
    (s.block.pre = true → v = 0x5A → exec (.rx v) s = .next { s with block := { s.block with
      got := true, code := v, pm := true, phase := .pre2 } }) ∧
    (s.block.pre = true → v ≠ 0x5A → exec (.rx v) s = .next { s with block := { s.block with
      got := true, code := v, pm := true, phase := .hunt, skip := true } })

/-- Arms `HUNT` and `PRE2` (R172, R173): the preamble, and bytes discarded before it. -/
def Obligations.RxHuntsPreamble : Prop :=
  ∀ (v : Byte) (s : State), s.launched = true → s.block.phase = .hunt ∨ s.block.phase = .pre2 →
    exec (.rx v) s = .next { s with block :=
      if v = 0x5A then
        { s.block with phase := if s.block.phase = .hunt then .pre2 else .type }
      else { s.block with phase := .hunt, skip := true } }

/-- Arms `TYPE` and `LEN` (R174, R175). -/
def Obligations.RxTakesTypeAndLength : Prop :=
  ∀ (v : Byte) (s : State), s.launched = true →
    (s.block.phase = .type → exec (.rx v) s = .next { s with block := { s.block with
      type := v, pacc := v.zeroExtend 16, phase := .len } }) ∧
    (s.block.phase = .len → exec (.rx v) s = .next { s with block := { s.block with
      len := v, pacc := s.block.pacc + v.zeroExtend 16, cnt := 0,
      phase := if v = 0 then .cks else .data } })

/-- Arm `DATA` (R176): `DBUF[CNT]` takes the byte and no other entry changes, the sum and the count
grow, and the checksum byte is next after `LEN` bytes. In every reachable state `CNT` < `LEN`, so
`CNT` ≤ 254 there (R61). -/
def Obligations.RxTakesDataByte : Prop :=
  ∀ (v : Byte) (s : State), s.launched = true → s.block.phase = .data →
    s.block.cnt.toNat < s.block.len.toNat →
    ∃ t, exec (.rx v) s = .next t ∧
      (∀ a, t.block.dbuf.read a = if a = s.block.cnt.toNat then some v else s.block.dbuf.read a) ∧
      t.block.cnt.toNat = s.block.cnt.toNat + 1 ∧
      t.block.pacc.toNat = (s.block.pacc.toNat + v.toNat) % 2 ^ 16 ∧
      t.block.phase = (if s.block.cnt.toNat + 1 = s.block.len.toNat then .cks else .data) ∧
      t = { s with block := { s.block with
        dbuf := t.block.dbuf, cnt := t.block.cnt, pacc := t.block.pacc, phase := t.block.phase } }

/-- Arms `CKS` and `DONE` (R177, R178): the checksum byte against `XCK`, and bytes after it. -/
def Obligations.RxTakesChecksumAndTrail : Prop :=
  ∀ (v : Byte) (s : State), s.launched = true →
    (s.block.phase = .cks → exec (.rx v) s = .next { s with block := { s.block with
      rck := v,
      ckok := decide (v = BitVec.ofNat 8 (s.block.pacc.toNat % 256) ^^^ 0xFF#8),
      phase := .done } }) ∧
    (s.block.phase = .done → exec (.rx v) s = .next { s with block := { s.block with trail := true } })

/-- The phase transitions, complete (R187): `RX` by the table, `RX_END` and `RST` to `IDLE`, and no
other operation changes `PHASE`. The response rows are no operation of R187 but sequences of them
(log entry 12); `ResponseRowsDeliverFrame` says where they leave it. -/
def Obligations.PhaseMovesByTable : Prop :=
  ∀ (i : Instr) (s t : State), exec i s = .next t →
    match i with
    | .rx v => t.block.phase = nextPhase s.block v
    | .rxEnd | .rst => t.block.phase = .idle
    | .rspReadFileMore _ _ _ | .rspDirectoryMore _ _ _ | .rspGeneric12 _ _ _
    | .rspDriveCondition _ _ _ => True
    | _ => t.block.phase = s.block.phase

/-- `RX_END` (R179): one record, every field computed from the state before, and every PKT and DSP
register and flag cleared; `DBUF`, `CTRL`, `ACC`, `NLEN`, `NBUF` as before. -/
def Obligations.RxEndReportsAndClears : Prop :=
  ∀ (data : List Byte) (s : State), s.launched = true → s.block.dataHeld = some data →
    exec .rxEnd s = .next { s with
      output := s.output ++ [.res {
        cls := if s.block.got then
            (match dispatch s.block.code with
              | .hit k => .known k
              | .miss => .unrecognized s.block.code)
          else .empty
        prs := match s.block.phase with
          | .idle | .hunt | .pre2 => .noFrame
          | .type | .len | .data | .cks => .truncated
          | .done => if s.block.ckok then .frameOK else .checksumMismatch
        pm := if s.block.phase = .idle then s.block.pre else s.block.pm
        phase := s.block.phase, type := s.block.type, len := s.block.len, cnt := s.block.cnt
        data := data, rck := s.block.rck
        xck := BitVec.ofNat 8 (s.block.pacc.toNat % 256) ^^^ 0xFF#8
        kind := dispatch s.block.type, skip := s.block.skip, trail := s.block.trail }]
      block := { s.block with
        phase := .idle, pm := false, type := 0, len := 0, cnt := 0, rck := 0, code := 0, pacc := 0,
        got := false, skip := false, trail := false, ckok := false } }

/-- Where the model stops (log entries 5 and 6, the model's own; R61 says no run gets there): a `DBUF`
store at index 255, and a record or a directory frame that needs an entry nothing has written. -/
def Obligations.UnheldEntriesFault : Prop :=
  (∀ (v : Byte) (s : State), s.launched = true → s.block.phase = .data → s.block.cnt = 255 →
    exec (.rx v) s = .fault (.noEntry .dbuf 255)) ∧
  (∀ s : State, s.launched = true → s.block.dataHeld = none →
    ∃ a, a < s.block.cnt.toNat ∧ s.block.dbuf.read a = none ∧
      exec .rxEnd s = .fault (.noValue .dbuf a)) ∧
  (∀ (sf : Byte) (s : State), s.launched = true → s.block.nlen.toNat ≤ 24 → sf.toNat ≤ 4 →
    s.block.nameHeld = none →
    ∃ a, a < s.block.nlen.toNat ∧ s.block.nbuf.read a = none ∧
      exec (.encDir sf) s = .fault (.noValue .nbuf a))

/-! ### The parser as a function of the buffer -/

/-- Format RSP (R182): the record of every buffer delivered from `IDLE` with `CTRL.PRE` = 0. -/
def Obligations.FormatRspParsesBuffer : Prop :=
  ∀ (buffer : List Byte) (s : State), s.Inv → s.block.phase = .idle → s.block.pre = false →
    ∃ t, runTrace (delivery buffer) s = .next t ∧ t.output = s.output ++ [.res (rspResult buffer)]

/-- Format F (R183): the record of every buffer delivered from `IDLE` with `CTRL.PRE` = 1. -/
def Obligations.FormatFParsesBuffer : Prop :=
  ∀ (buffer : List Byte) (s : State), s.Inv → s.block.phase = .idle → s.block.pre = true →
    ∃ t, runTrace (delivery buffer) s = .next t ∧ t.output = s.output ++ [.res (formatFResult buffer)]

/-- `RES.cls` is the source's `classify` of the buffer, whatever the mode and whatever the rest of the
buffer holds (R210); with it (I11) of R44, that `CODE` is byte 0 of the buffer in progress. -/
def Obligations.ResultClassifiesByteZero : Prop :=
  ∀ (buffer : List Byte) (s : State), s.Inv → s.block.phase = .idle →
    (∃ t r, runTrace (delivery buffer) s = .next t ∧ t.output = s.output ++ [.res r] ∧
      r.cls = classify buffer) ∧
    (∀ v rest, buffer = v :: rest → ∃ t, runTrace (buffer.map .rx) s = .next t ∧
      t.block.code = v ∧ t.block.got = true)

/-- No state survives a buffer (R185): after `RX_END` every PKT and DSP register and flag has its reset
value, and the record of a buffer is a function of its bytes and of `CTRL.PRE` at its first byte. -/
def Obligations.NoStateSurvivesBuffer : Prop :=
  (∀ s t : State, exec .rxEnd s = .next t →
    t.block = { Block.reset with
      acc := s.block.acc, ctrl := s.block.ctrl, nlen := s.block.nlen, nbuf := s.block.nbuf,
      dbuf := s.block.dbuf }) ∧
  (∀ (buffer : List Byte) (s s' : State), s.Inv → s'.Inv → s.block.phase = .idle →
    s'.block.phase = .idle → s.block.pre = s'.block.pre →
    ∃ t t' r, runTrace (delivery buffer) s = .next t ∧ runTrace (delivery buffer) s' = .next t' ∧
      t.output = s.output ++ [.res r] ∧ t'.output = s'.output ++ [.res r])

/-- The equivalent forms of a right checksum, and what ENC emits, looped back through PKT with `CTRL.PRE`
= 1, is `FrameOK` with nothing skipped, the type, length and data that were encoded, and `trail` as
asked for (R184). -/
def Obligations.EncodedFramesLoopBack : Prop :=
  (∀ (t n c : Byte) (d : List Byte),
    (c = checksum ([t, n] ++ d) ↔ (t.toNat + n.toNat + byteSum d + c.toNat) % 256 = 255) ∧
    (c = checksum ([t, n] ++ d) ↔ checksum ([t, n] ++ d ++ [c]) = 0x00)) ∧
  (∀ (t : Byte) (trail : Bool) (s : State), s.Inv → s.block.phase = .idle → s.block.pre = true →
    ∃ s1 frame s2 r, exec (.encSimple t trail) s = .next s1 ∧
      s1.output = s.output ++ [.txf frame] ∧ runTrace (delivery frame) s1 = .next s2 ∧
      s2.output = s1.output ++ [.res r] ∧ r.prs = .frameOK ∧ r.skip = false ∧ r.type = t ∧
      r.len = 0 ∧ r.data = [] ∧ r.trail = trail) ∧
  (∀ (sf : Byte) (name : List Byte) (s : State), s.Inv → s.block.phase = .idle →
    s.block.pre = true → s.block.nlen.toNat ≤ 24 → sf.toNat ≤ 4 → s.block.nameHeld = some name →
    ∃ s1 frame s2 r, exec (.encDir sf) s = .next s1 ∧
      s1.output = s.output ++ [.txf frame] ∧ runTrace (delivery frame) s1 = .next s2 ∧
      s2.output = s1.output ++ [.res r] ∧ r.prs = .frameOK ∧ r.skip = false ∧ r.type = 0x00 ∧
      r.len = 0x1A ∧ r.data = name ++ List.replicate (24 - name.length) 0x20 ++ [0x46, sf] ∧
      r.trail = false)

/-- The named command frames, delivered as one buffer (R148 to R159): in format F complete, nothing
skipped, `cls` = `Unrecognized(0x5A)`, `kind` = `Miss`; in format RSP cut short. -/
def Obligations.NamedFramesDelivered : Prop :=
  ∀ (i : Instr) (name frame : List Byte) (s : State), s.Inv → s.block.phase = .idle →
    encode i name = some frame →
    (∀ len data cks, i ≠ .rspReadFileMore len data cks ∧ i ≠ .rspDirectoryMore len data cks ∧
      i ≠ .rspGeneric12 len data cks ∧ i ≠ .rspDriveCondition len data cks) →
    ∃ t r, runTrace (delivery frame) s = .next t ∧ t.output = s.output ++ [.res r] ∧
      r.cls = .unrecognized 0x5A ∧ r.kind = .miss ∧
      (s.block.pre = true → r.prs = .frameOK ∧ r.skip = false ∧
        r.trail = decide (i = .driveStatusCr ∨ i = .formatCr)) ∧
      (s.block.pre = false → r.prs = .truncated ∧ r.type = 0x5A ∧ r.len = 0x5A)

/-- `SET_PRE` in the middle of a buffer changes nothing of that buffer's record and governs the next
one (R254). -/
def Obligations.SetPreWaitsForNextBuffer : Prop :=
  ∀ (v : Bool) (b0 : Byte) (before after next : List Byte) (s : State), s.Inv →
    s.block.phase = .idle →
    ∃ t, runTrace ((b0 :: before).map .rx ++ .setPre v :: delivery after ++ delivery next) s = .next t ∧
      t.output = s.output ++
        [.res (bufferResult s.block.pre (b0 :: before ++ after)), .res (bufferResult v next)]

/-- `RST` in the middle of a buffer drops it without a record, and the next bytes are a new buffer in the
reset mode (R250, R262). -/
def Obligations.RstDropsPartialBuffer : Prop :=
  ∀ (before after : List Byte) (s : State), s.Inv →
    ∃ t, runTrace (before.map .rx ++ .rst :: delivery after) s = .next t ∧
      t.output = s.output ++ [.res (rspResult after)]

/-! ### The dispatch multiplexer and the response rows -/

/-- `dispatch` (R200, R206): the four codes of `DROM` hit their kinds, and every other value misses. -/
def Obligations.DispatchHitsExactlyDrom : Prop :=
  ∀ code : Byte,
    (∀ k, dispatch code = .hit k ↔
      code = match k with
        | .readFileMore => 0x10
        | .directoryMore => 0x11
        | .generic12 => 0x12
        | .driveCondition => 0x15) ∧
    (dispatch code = .miss ↔ code ∉ [0x10#8, 0x11#8, 0x12#8, 0x15#8])

/-- A response row is its frame delivered as one buffer (R99, log entry 12): one record, the parser
cleared, `DBUF` holding the record's data from index 0 on and every other entry as before; from
`IDLE` the record of that buffer, and in the middle of another buffer that buffer's classification. -/
def Obligations.ResponseRowsDeliverFrame : Prop :=
  ∀ (k : Kind) (i : Instr) (len : Byte) (data : List Byte) (cks : Byte) (s : State), s.Inv →
    (k, i) ∈ [(Kind.readFileMore, Instr.rspReadFileMore len data cks),
      (.directoryMore, .rspDirectoryMore len data cks), (.generic12, .rspGeneric12 len data cks),
      (.driveCondition, .rspDriveCondition len data cks)] →
    ∃ t r, exec i s = .next t ∧
      t = { s with
        output := s.output ++ [.res r]
        block := { Block.reset with
          acc := s.block.acc, ctrl := s.block.ctrl, nlen := s.block.nlen, nbuf := s.block.nbuf,
          dbuf := t.block.dbuf } } ∧
      (∀ a, t.block.dbuf.read a = if a < r.data.length then r.data[a]? else s.block.dbuf.read a) ∧
      (s.block.phase = .idle →
        r = bufferResult s.block.pre (drom k :: len :: (data ++ [cks]))) ∧
      (s.block.phase ≠ .idle → r.cls = classifyCode s.block.code)

/-- A well-formed response row from `IDLE`. That `exec` of the row is the delivery of its frame as one
buffer, R99's `classify(buf)`, is the model's choice (log entry 12); what such a delivery gives is
R202 to R205 with R182: `cls` and, in format RSP, `kind` are the row's kind, the frame is complete, and
`prs` says whether its checksum byte is right. -/
def Obligations.ResponseRowsAreKnown : Prop :=
  ∀ (k : Kind) (i : Instr) (len : Byte) (data : List Byte) (cks : Byte) (s : State), s.Inv →
    s.block.phase = .idle → i.wellFormed = true →
    (k, i) ∈ [(Kind.readFileMore, Instr.rspReadFileMore len data cks),
      (.directoryMore, .rspDirectoryMore len data cks), (.generic12, .rspGeneric12 len data cks),
      (.driveCondition, .rspDriveCondition len data cks)] →
    ∃ t r, exec i s = .next t ∧ t.output = s.output ++ [.res r] ∧ r.cls = .known k ∧
      (s.block.pre = false → r.kind = .hit k ∧ r.phase = .done ∧ r.type = drom k ∧ r.len = len ∧
        r.cnt = len ∧ r.data = data ∧ r.rck = cks ∧ r.trail = false ∧
        (r.prs = .frameOK ↔ cks = checksum (drom k :: len :: data)) ∧
        (r.prs = .checksumMismatch ↔ cks ≠ checksum (drom k :: len :: data)))

/-! ### Control -/

/-- `RST` (R250, R43): legal in every state, before any other `RST` too; the table of reset values; the
buffers and the events around the block as they were. -/
def Obligations.RstGivesResetValues : Prop :=
  ∀ s : State, exec .rst s = .next { s with
    launched := true
    block := {
      acc := 0, ctrl := 0x00, pm := false, phase := .idle, type := 0, len := 0, cnt := 0, rck := 0,
      code := 0, pacc := 0, got := false, skip := false, trail := false, ckok := false,
      dbuf := s.block.dbuf, nlen := 0, nbuf := s.block.nbuf } }

/-- `SET_PRE(v)` (R24, R23): `CTRL.PRE` takes `v`, the reserved bits and everything else stay. -/
def Obligations.SetPreWritesOnlyPre : Prop :=
  ∀ (v : Bool) (s : State), s.launched = true →
    ∃ t, exec (.setPre v) s = .next t ∧ t.block.pre = v ∧
      (∀ k, 1 ≤ k → t.block.ctrl.getLsbD k = s.block.ctrl.getLsbD k) ∧
      t = { s with block := { s.block with ctrl := t.block.ctrl } }

/-- `RD(r)` (R40, R39, R35, R22, R31): one `RDVAL` with the register's read value, nothing written. -/
def Obligations.RdReadsRegisterTable : Prop :=
  ∀ (r : Reg) (s : State), s.launched = true →
    ∃ v : Byte, exec (.rd r) s = .next { s with output := s.output ++ [.rdval v] } ∧
      match r with
      | .ctrl => v = if s.block.pre then 0x01 else 0x00
      | .stat => v.getLsbD 0 = s.block.got ∧ v.getLsbD 1 = s.block.skip ∧
          v.getLsbD 2 = s.block.trail ∧ v.getLsbD 3 = s.block.ckok ∧
          v.getLsbD 4 = decide (s.block.nlen.toNat = 25) ∧ v.getLsbD 5 = s.block.pm ∧
          v.getLsbD 6 = false ∧ v.getLsbD 7 = false
      | .phase => v.toNat = match s.block.phase with
          | .idle => 0 | .hunt => 1 | .pre2 => 2 | .type => 3
          | .len => 4 | .data => 5 | .cks => 6 | .done => 7
      | .csum => v = BitVec.ofNat 8 (s.block.acc.toNat % 256) ^^^ 0xFF#8
      | .type => v = s.block.type
      | .len => v = s.block.len
      | .cnt => v = s.block.cnt
      | .rck => v = s.block.rck
      | .xck => v = BitVec.ofNat 8 (s.block.pacc.toNat % 256) ^^^ 0xFF#8
      | .code => v = s.block.code
      | .nlen => v.toNat = s.block.nlen.toNat

/-- Before the first `RST` the model gives no meaning to any operation other than `RST` (R251, R239
(a)). -/
def Obligations.OnlyRstBeforeLaunch : Prop :=
  ∀ (i : Instr) (s : State), s.launched = false →
    if i = .rst then ∃ t, exec i s = .next t ∧ t.launched = true
    else exec i s = .refused .beforeReset

/-! ### Invariant, totality, frames -/

/-- The state after reset meets R44. -/
def Obligations.ResetMeetsInvariant : Prop :=
  State.reset.Inv

/-- Every step keeps R44, from every state that meets it, whatever the host presents. -/
def Obligations.StepKeepsInvariant : Prop :=
  ∀ s t : State, s.Inv → step s = .next t → t.Inv

/-- Every operation is total after `RST` (R239, R186): no step faults or refuses, whatever the host
presents. -/
def Obligations.EveryStepCompletes : Prop :=
  ∀ s : State, s.Inv → ∃ t, step s = .next t

/-- What each of the eleven operations emits (R69 (b)): `RD` one `RDVAL`; `ENC_SIMPLE` one `TXF`; `ENC_DIR`
one `TXF` or one `ERR`; `RX_END` one `RES`; every other one nothing. R69 does not speak of the frame
rows. Theirs follow from the model's reading of R99: a named command row emits what the `ENC_SIMPLE` or
`ENC_DIR` it expands to emits (log entry 10), and a response row, whose frame is delivered as one buffer,
emits that buffer's one `RES` (log entry 12). -/
def Obligations.OperationsEmitTheirOutputs : Prop :=
  ∀ (i : Instr) (s t : State), exec i s = .next t →
    match i with
    | .rd _ => ∃ v, t.output = s.output ++ [.rdval v]
    | .encSimple _ _ | .driveStatus | .driveStatusCr | .driveCondition | .close | .format
    | .formatCr | .erase => ∃ f, t.output = s.output ++ [.txf f]
    | .encDir _ | .dirRef | .dirFirst | .dirNext | .dirPrev | .dirEnd =>
      (∃ f, t.output = s.output ++ [.txf f]) ∨ (∃ e, t.output = s.output ++ [.err e])
    | .rxEnd | .rspReadFileMore _ _ _ | .rspDirectoryMore _ _ _ | .rspGeneric12 _ _ _
    | .rspDriveCondition _ _ _ => ∃ r, t.output = s.output ++ [.res r]
    | .rst | .setPre _ | .csClr | .csPut _ | .nmClr | .nmPut _ | .rx _ => t.output = s.output

/-- Frame of the CSE and of the control register (R21, R23): `ACC` is written by `CS_CLR`, `CS_PUT` and
`RST` and by nothing else; `CTRL` by `SET_PRE` and `RST` and by nothing else. -/
def Obligations.AccAndCtrlHaveTheirWriters : Prop :=
  ∀ (i : Instr) (s t : State), exec i s = .next t →
    (t.block.acc ≠ s.block.acc → i = .rst ∨ i = .csClr ∨ ∃ v, i = .csPut v) ∧
    (t.block.ctrl ≠ s.block.ctrl → i = .rst ∨ ∃ v, i = .setPre v)

/-- Frame of the encoder's state (R38, R37, R60): `NLEN` is written by `NM_CLR`, `NM_PUT` and `RST`
only, and every entry of `NBUF` is as before but the one at `NLEN` that `NM_PUT` stores to while
`NLEN` < 24. -/
def Obligations.FilenameHasItsWriters : Prop :=
  ∀ (i : Instr) (s t : State), exec i s = .next t →
    (t.block.nlen ≠ s.block.nlen → i = .rst ∨ i = .nmClr ∨ ∃ v, i = .nmPut v) ∧
    ∀ a, t.block.nbuf.read a ≠ s.block.nbuf.read a →
      (∃ v, i = .nmPut v) ∧ a = s.block.nlen.toNat ∧ a < 24

/-- Frame of PKT and DSP (R25 to R36): their registers and flags are written by `RX`, `RX_END` and
`RST` only (and by the response rows, which are made of them), and every entry of `DBUF` is as
before but the one at `CNT` that `RX` stores to in phase `DATA`. -/
def Obligations.ParserHasItsWriters : Prop :=
  ∀ (i : Instr) (s t : State), exec i s = .next t →
    (∀ len data cks, i ≠ .rspReadFileMore len data cks ∧ i ≠ .rspDirectoryMore len data cks ∧
      i ≠ .rspGeneric12 len data cks ∧ i ≠ .rspDriveCondition len data cks) →
    (i ≠ .rst → i ≠ .rxEnd → (∀ v, i ≠ .rx v) →
      t.block = { s.block with
        acc := t.block.acc, ctrl := t.block.ctrl, nlen := t.block.nlen, nbuf := t.block.nbuf }) ∧
    ∀ a, t.block.dbuf.read a ≠ s.block.dbuf.read a →
      (∃ v, i = .rx v) ∧ s.block.phase = .data ∧ a = s.block.cnt.toNat

/-- Every step keeps the canonical form of both buffers, from any state at all. -/
def Obligations.StepKeepsBuffersCanonical : Prop :=
  ∀ s t : State, Memory.wf 255 s.block.dbuf → Memory.wf 24 s.block.nbuf → step s = .next t →
    Memory.wf 255 t.block.dbuf ∧ Memory.wf 24 t.block.nbuf

/-- Operations of different classes commute (R70): in either order the same block and the same output
from each; `RD(STAT)` commutes with the checksum port. R70's classes hold the eleven operations only; the
frame rows stand in the class of the operations the model makes them of, the named command rows in that
of `ENC_SIMPLE` and `ENC_DIR` (log entry 10) and the response rows in that of `RX` and `RX_END` (log
entry 12). -/
def Obligations.OperationClassesCommute : Prop :=
  ∀ (i j : Instr) (s : State), s.Inv →
    (∃ c d, opClass i = some c ∧ opClass j = some d ∧ c ≠ d) ∨
      (i = .rd .stat ∧ opClass j = some .cs) →
    ∃ si sij sj sji oi oj,
      exec i s = .next si ∧ exec j si = .next sij ∧ exec j s = .next sj ∧ exec i sj = .next sji ∧
      sij.block = sji.block ∧
      si.output = s.output ++ oi ∧ sij.output = si.output ++ oj ∧
      sj.output = s.output ++ oj ∧ sji.output = sj.output ++ oi

/-! ### Steps -/

/-- A step runs the next event presented: `exec` of it, on the machine with that event taken and the
outputs of the step before gone, and then the event and its outputs are recorded (R69, R73). -/
def Obligations.StepRunsPresentedEvent : Prop :=
  ∀ (i : Instr) (rest : List Instr) (s : State), s.input = i :: rest →
    step s = match exec i { s with input := rest, output := [] } with
      | .next t => .next { t with history := t.history ++ [{ op := i, outs := t.output }] }
      | .fault f => .fault f
      | .refused r => .refused r

/-- When a table word decodes to an instruction, the very next step of the machine with that word is
`exec` of that instruction; a directory row's filename field is loaded as the filename (log entry
11), and nothing else of the block differs. -/
def Obligations.FetchWordRunsDecodedInstruction : Prop :=
  ∀ (nbits w : Nat) (d : Decoded) (s : State), decode (wordBytes nbits w) = .ok d →
    ∃ b, (d.instr.searchForm = none → b = s.block) ∧
      (d.instr.searchForm ≠ none →
        b = { s.block with nlen := 24, nbuf := b.nbuf } ∧ b.nameHeld = some d.name) ∧
      decodeTableWord nbits w = some d.instr ∧
      step (s.withFetchWord nbits w) =
        match exec d.instr { s with block := b, output := [] } with
        | .next t => .next { t with history := t.history ++ [{ op := d.instr, outs := t.output }] }
        | .fault f => .fault f
        | .refused r => .refused r

/-- With no event presented a step leaves the block as it is (R238). -/
def Obligations.IdleStepKeepsBlock : Prop :=
  ∀ s : State, s.input = [] → step s = .next { s with output := [] }

/-- Steps over presented events are the left fold of the operations, and the observation is the
concatenation of their outputs in the same order (R69). -/
def Obligations.StepsFoldPresentedEvents : Prop :=
  ∀ (ops : List Instr) (s t : State), runTrace ops s = .next t →
    ∃ u outs, core.run ops.length { s with input := ops } = .next u ∧
      u.block = t.block ∧ u.launched = t.launched ∧ u.input = [] ∧
      t.output = s.output ++ outs ∧
      State.observation u = State.observation s ++ outs
end

