-- ==== Sys2Proof/Laws/Checksum.lean ====
section
/-! SUPPORT. The small lemmas of `byteSum`, `onesComplement` and `checksum`
(spec/40_checksum.md R120, R124). -/

namespace Sys2Proof

@[simp] theorem byteSum_nil : byteSum [] = 0 := rfl

@[simp] theorem byteSum_cons (b : Byte) (bs : List Byte) :
    byteSum (b :: bs) = b.toNat + byteSum bs := rfl

@[simp] theorem byteSum_append (as bs : List Byte) :
    byteSum (as ++ bs) = byteSum as + byteSum bs := by
  induction as with
  | nil => simp
  | cons a as ih => simp [ih]; omega

theorem byteSum_replicate (n : Nat) (b : Byte) : byteSum (List.replicate n b) = n * b.toNat := by
  induction n with
  | zero => simp
  | succ n ih => simp [List.replicate_succ, ih, Nat.succ_mul]; omega

/-- A byte is at most 255, so `n` of them sum to at most `255 n` (R29). -/
theorem byteSum_le (bs : List Byte) : byteSum bs ≤ 255 * bs.length := by
  induction bs with
  | nil => simp
  | cons b bs ih => have := b.isLt; simp; omega

/-- `x XOR 0xFF = 255 − x` (R124 (a)). -/
theorem xor_ff_toNat (x : Byte) : (x ^^^ 0xFF#8).toNat = 255 - x.toNat := by
  have h : x ^^^ 0xFF#8 = ~~~x := by rw [← BitVec.xor_allOnes]; rfl
  rw [h, BitVec.toNat_not]

theorem onesComplement_toNat (n : Nat) : (onesComplement n).toNat = 255 - n % 256 := by
  rw [onesComplement, xor_ff_toNat, BitVec.toNat_ofNat, Nat.mod_mod]

theorem checksum_toNat (bs : List Byte) : (checksum bs).toNat = 255 - byteSum bs % 256 :=
  onesComplement_toNat _

/-- Only the sum modulo 256 is seen (R121, R129 (a)). -/
theorem onesComplement_congr {m n : Nat} (h : m % 256 = n % 256) :
    onesComplement m = onesComplement n := by
  simp [onesComplement, h]

end Sys2Proof
end

