-- ==== Sys2Proof/Laws/Codec.lean ====
section
/-! SUPPORT. The decoder's matching, run by run, and the frames of each format (spec/30_encoding.md R86 to
R92, R101). -/

namespace Sys2Proof

/-- A byte under the mask `FF`. -/
theorem and_ff (x : Byte) : x &&& 0xFF#8 = x := by
  have h : (0xFF#8) = BitVec.allOnes 8 := rfl
  rw [h, BitVec.and_allOnes]

/-- Bytes under the mask `00` match anything. -/
theorem matchesBytes_free : ∀ (n : Nat) (v tl p m : List Byte), v.length = n →
    matchesBytes (List.replicate n 0 ++ p) (List.replicate n 0 ++ m) (v ++ tl) =
      matchesBytes p m tl := by
  intro n
  induction n with
  | zero =>
    intro v tl p m h
    simp at h
    subst h
    rfl
  | succ n ih =>
    intro v tl p m h
    cases v with
    | nil => simp at h
    | cons a v =>
      have := ih v tl p m (by simpa using h)
      simp only [List.replicate_succ, List.cons_append, matchesBytes, this]
      simp

/-- What matches a run under the mask `00` has that many bytes. -/
theorem matchesBytes_free_inv : ∀ (n : Nat) (f p m : List Byte),
    matchesBytes (List.replicate n 0 ++ p) (List.replicate n 0 ++ m) f = true →
    ∃ v tl, f = v ++ tl ∧ v.length = n ∧ matchesBytes p m tl = true := by
  intro n
  induction n with
  | zero => intro f p m h; exact ⟨[], f, rfl, rfl, h⟩
  | succ n ih =>
    intro f p m h
    cases f with
    | nil => simp [List.replicate_succ, matchesBytes] at h
    | cons a f =>
      simp only [List.replicate_succ, List.cons_append, matchesBytes, Bool.and_eq_true] at h
      obtain ⟨v, tl, rfl, hl, hm⟩ := ih f p m h.2
      exact ⟨a :: v, tl, rfl, by simp [hl], hm⟩

/-- What matches a run under the mask `FF` begins with the pattern. -/
theorem matchesBytes_const_inv : ∀ (p p' m' f : List Byte),
    matchesBytes (p ++ p') (List.replicate p.length 0xFF ++ m') f = true →
    ∃ tl, f = p ++ tl ∧ matchesBytes p' m' tl = true := by
  intro p
  induction p with
  | nil => intro p' m' f h; exact ⟨f, rfl, h⟩
  | cons a p ih =>
    intro p' m' f h
    cases f with
    | nil => simp [List.replicate_succ, matchesBytes] at h
    | cons b f =>
      simp only [List.length_cons, List.replicate_succ, List.cons_append, matchesBytes,
        Bool.and_eq_true] at h
      obtain ⟨tl, rfl, h2⟩ := ih _ _ f h.2
      have hb : b = a := by
        have := h.1
        simp only [beq_iff_eq] at this
        exact (and_ff b).symm.trans this
      exact ⟨tl, by rw [hb]; rfl, h2⟩

/-- The padded filename fills its field (R90). -/
theorem padName_length {name : List Byte} (h : name.length ≤ 24) : (padName name).length = 24 := by
  simp [padName, Config.nbufN]; omega

/-- A filename that fills its field takes no padding (R90). -/
theorem padName_full {name : List Byte} (h : name.length = 24) : padName name = name := by
  simp [padName, h, Config.nbufN]

/-- Which directory rows cover a frame with constant bytes as in R88: those of its search form. -/
theorem cmddirRow_covers (i : Instr) (sf sf' c : Byte) (v rest : List Byte) (h : v.length = 24) :
    (cmddirRow i sf).covers ([0x5A, 0x5A, 0x00, 0x1A] ++ v ++ [0x46, sf'] ++ [c] ++ rest) =
      (sf' == sf) := by
  have e := matchesBytes_free 24 v ([0x46, sf'] ++ [c] ++ rest) [0x46, sf, 0x00]
    [0xFF, 0xFF, 0x00] h
  have e3 : matchesBytes [0x46, sf, 0x00] [0xFF, 0xFF, 0x00] ([0x46, sf'] ++ [c] ++ rest) =
      (sf' == sf) := by
    have := and_ff sf'
    simp [matchesBytes]
    rw [this]
  rw [e3] at e
  rw [← e]
  simp only [List.append_assoc]
  rfl

/-- The fields of a directory frame (R88). -/
theorem decodeRow_cmddir (i : Instr) (sf c : Byte) (v rest : List Byte) (h : v.length = 24) :
    decodeRow (cmddirRow i sf) ([0x5A, 0x5A, 0x00, 0x1A] ++ v ++ [0x46, sf] ++ [c] ++ rest) =
      .ok ⟨i, v, c, rest⟩ := by
  have d4 : ([0x5A, 0x5A, 0x00, 0x1A] ++ v ++ [0x46, sf] ++ [c] ++ rest).drop 4 =
      v ++ ([0x46, sf] ++ [c] ++ rest) := by simp
  have d28 : [0x5A, 0x5A, 0x00, 0x1A] ++ v ++ [0x46, sf] ++ [c] ++ rest =
      ([0x5A, 0x5A, 0x00, 0x1A] ++ v) ++ ([0x46, sf] ++ [c] ++ rest) := by simp
  have l28 : ([0x5A, 0x5A, 0x00, 0x1A] ++ v).length = 28 := by simp [h]
  simp only [decodeRow, cmddirRow]
  congr 1
  rw [d4, List.take_left' h]
  congr 1
  · rw [d28, List.getD_eq_getElem?_getD, List.getElem?_append_right (by omega), l28]
    rfl
  · rw [d28, show 31 = ([0x5A, 0x5A, 0x00, 0x1A] ++ v).length + 3 by omega,
      List.drop_length_add_append]
    rfl

/-- Decoding a directory frame (R88, R89). -/
theorem decode_cmddir (sf : SearchForm) (i : Instr) (hi : i.searchForm = some sf) (c : Byte)
    (v rest : List Byte) (h : v.length = 24) :
    decode ([0x5A, 0x5A, 0x00, 0x1A] ++ v ++ [0x46, sf.code] ++ [c] ++ rest) =
      .ok ⟨i, v, c, rest⟩ := by
  have c0 : ∀ (i : Instr) (a b : Byte), a ≠ 0 → (cmd0Row i a b).covers
      ([0x5A, 0x5A, 0x00, 0x1A] ++ v ++ [0x46, sf.code] ++ [c] ++ rest) = false := by
    intro i a b ha
    simp [FrameRow.covers, cmd0Row, matchesBytes, List.replicate]
  have c1 : ∀ (i : Instr) (a b : Byte), a ≠ 0 → (cmd0tRow i a b).covers
      ([0x5A, 0x5A, 0x00, 0x1A] ++ v ++ [0x46, sf.code] ++ [c] ++ rest) = false := by
    intro i a b ha
    simp [FrameRow.covers, cmd0tRow, matchesBytes, List.replicate]
  have c2 := fun (i : Instr) (sf' : Byte) => cmddirRow_covers i sf' sf.code c v rest h
  have hfind : frameRows.find? (fun r => r.covers
      ([0x5A, 0x5A, 0x00, 0x1A] ++ v ++ [0x46, sf.code] ++ [c] ++ rest)) =
        some (cmddirRow i sf.code) := by
    simp only [frameRows, List.cons_append, List.find?, List.nil_append]
    simp only [List.cons_append, List.nil_append] at c0 c1 c2
    rw [c1 _ _ _ (by decide), c1 _ _ _ (by decide), c0 _ _ _ (by decide), c0 _ _ _ (by decide),
      c0 _ _ _ (by decide), c0 _ _ _ (by decide), c0 _ _ _ (by decide)]
    simp only [c2]
    cases i <;> simp [Instr.searchForm] at hi <;> subst hi <;> simp [SearchForm.code]
  rw [decode, hfind]
  exact decodeRow_cmddir i sf.code c v rest h

/-- Decoding a simple command frame that no trailer follows (R86). -/
theorem decode_cmd0 (i : Instr) (t k : Byte) (rest : List Byte) (hr : rest.head? ≠ some 0x0D)
    (hm : cmd0Row i t k ∈ frameRows) :
    decode ([0x5A, 0x5A, t, 0, k] ++ rest) = .ok ⟨i, [], k, rest⟩ := by
  have c1 : ∀ (i : Instr) (a b : Byte),
      (cmd0tRow i a b).covers ([0x5A, 0x5A, t, 0, k] ++ rest) = false := by
    intro i a b
    cases rest with
    | nil => simp [FrameRow.covers, cmd0tRow, matchesBytes, List.replicate]
    | cons r rs =>
      have e := and_ff r
      simp [FrameRow.covers, cmd0tRow, matchesBytes, List.replicate, e]
      intro _ _
      simpa using hr
  have c2 : ∀ (i : Instr) (a b : Byte),
      (cmd0Row i a b).covers ([0x5A, 0x5A, t, 0, k] ++ rest) = (t == a && k == b) := by
    intro i a b
    have e := and_ff t
    have e' := and_ff k
    simp [FrameRow.covers, cmd0Row, matchesBytes, List.replicate, e, e']
  rw [decode]
  simp only [frameRows, List.cons_append, List.nil_append, List.find?]
  simp only [List.cons_append, List.nil_append] at c1 c2
  rw [c1, c1, c2, c2, c2, c2, c2]
  simp [frameRows, cmd0Row, cmd0tRow, cmddirRow, rspRow] at hm
  rcases hm with ⟨rfl, rfl, rfl⟩ | ⟨rfl, rfl, rfl⟩ | ⟨rfl, rfl, rfl⟩ | ⟨rfl, rfl, rfl⟩ |
    ⟨rfl, rfl, rfl⟩ <;> rfl

/-- Decoding a response frame (R92, R97). -/
theorem decode_rsp (k : Kind) (len : Byte) (data rest : List Byte) (cks : Byte)
    (h : data.length = len.toNat) :
    decode (encodeRsp (drom k) len data cks ++ rest) =
      .ok ⟨rspInstr k len data cks, [], cks, rest⟩ := by
  have e : decode (encodeRsp (drom k) len data cks ++ rest) =
      decodeRsp k (encodeRsp (drom k) len data cks ++ rest) := by
    cases k <;> rfl
  rw [e]
  have hd : (data ++ [cks] ++ rest).drop len.toNat = cks :: rest := by rw [← h]; simp
  have ht : (data ++ [cks] ++ rest).take len.toNat = data := by rw [← h]; simp
  simp only [decodeRsp, encodeRsp, List.cons_append, hd, ht]

/-- What a decoded response frame is made of (R97). -/
theorem decodeRsp_cases {k : Kind} {f : List Byte} {d : Decoded} (h : decodeRsp k f = .ok d) :
    ∃ b0 len body cks rest, f = b0 :: len :: body ∧ body.drop len.toNat = cks :: rest ∧
      d = ⟨rspInstr k len (body.take len.toNat) cks, [], cks, rest⟩ := by
  unfold decodeRsp at h
  split at h
  · split at h
    · injection h with h
      exact ⟨_, _, _, _, _, rfl, ‹_›, h.symm⟩
    · cases h
  · cases h

/-- A decoded frame's row is a row of the table that covers the bytes. -/
theorem decode_cases {f : List Byte} {d : Decoded} (h : decode f = .ok d) :
    ∃ r, r ∈ frameRows ∧ r.covers f = true ∧ decodeRow r f = .ok d := by
  unfold decode at h
  split at h
  · rename_i r hr
    exact ⟨r, List.mem_of_find?_eq_some hr, by simpa using List.find?_some hr, h⟩
  · cases h

end Sys2Proof
end

