-- ==== Sys2Proof/Laws/State.lean ====
section
/-! SUPPORT. One lemma per field per named update of the block and of the machine: what the update
gives each field. Later proofs cite these and unfold no update. -/

namespace Sys2Proof.Machine

/-! `State.commit` -/

@[simp] theorem State.commit_block (s : State) (b : Block) (outs : List OutEvent)
     : (s.commit b outs).block = b := rfl
@[simp] theorem State.commit_launched (s : State) (b : Block) (outs : List OutEvent)
     : (s.commit b outs).launched = s.launched := rfl
@[simp] theorem State.commit_input (s : State) (b : Block) (outs : List OutEvent)
     : (s.commit b outs).input = s.input := rfl
@[simp] theorem State.commit_output (s : State) (b : Block) (outs : List OutEvent)
     : (s.commit b outs).output = s.output ++ outs := rfl
@[simp] theorem State.commit_history (s : State) (b : Block) (outs : List OutEvent)
     : (s.commit b outs).history = s.history := rfl

/-! `idle` -/

@[simp] theorem idle_block (s : State) : (idle s).block = s.block := rfl
@[simp] theorem idle_launched (s : State) : (idle s).launched = s.launched := rfl
@[simp] theorem idle_input (s : State) : (idle s).input = s.input := rfl
@[simp] theorem idle_output (s : State) : (idle s).output = [] := rfl
@[simp] theorem idle_history (s : State) : (idle s).history = s.history := rfl

/-! `Block.clearParser` (R179) -/

@[simp] theorem Block.clearParser_acc (b : Block) : b.clearParser.acc = b.acc := rfl
@[simp] theorem Block.clearParser_ctrl (b : Block) : b.clearParser.ctrl = b.ctrl := rfl
@[simp] theorem Block.clearParser_pm (b : Block) : b.clearParser.pm = false := rfl
@[simp] theorem Block.clearParser_phase (b : Block) : b.clearParser.phase = .idle := rfl
@[simp] theorem Block.clearParser_type (b : Block) : b.clearParser.type = 0 := rfl
@[simp] theorem Block.clearParser_len (b : Block) : b.clearParser.len = 0 := rfl
@[simp] theorem Block.clearParser_cnt (b : Block) : b.clearParser.cnt = 0 := rfl
@[simp] theorem Block.clearParser_rck (b : Block) : b.clearParser.rck = 0 := rfl
@[simp] theorem Block.clearParser_code (b : Block) : b.clearParser.code = 0 := rfl
@[simp] theorem Block.clearParser_pacc (b : Block) : b.clearParser.pacc = 0 := rfl
@[simp] theorem Block.clearParser_got (b : Block) : b.clearParser.got = false := rfl
@[simp] theorem Block.clearParser_skip (b : Block) : b.clearParser.skip = false := rfl
@[simp] theorem Block.clearParser_trail (b : Block) : b.clearParser.trail = false := rfl
@[simp] theorem Block.clearParser_ckok (b : Block) : b.clearParser.ckok = false := rfl
@[simp] theorem Block.clearParser_dbuf (b : Block) : b.clearParser.dbuf = b.dbuf := rfl
@[simp] theorem Block.clearParser_nlen (b : Block) : b.clearParser.nlen = b.nlen := rfl
@[simp] theorem Block.clearParser_nbuf (b : Block) : b.clearParser.nbuf = b.nbuf := rfl

/-! `Block.resetRegisters` (R250) -/

@[simp] theorem Block.resetRegisters_acc (b : Block) : b.resetRegisters.acc = 0 := rfl
@[simp] theorem Block.resetRegisters_ctrl (b : Block) : b.resetRegisters.ctrl = ctrlReset := rfl
@[simp] theorem Block.resetRegisters_pm (b : Block) : b.resetRegisters.pm = false := rfl
@[simp] theorem Block.resetRegisters_phase (b : Block) : b.resetRegisters.phase = .idle := rfl
@[simp] theorem Block.resetRegisters_type (b : Block) : b.resetRegisters.type = 0 := rfl
@[simp] theorem Block.resetRegisters_len (b : Block) : b.resetRegisters.len = 0 := rfl
@[simp] theorem Block.resetRegisters_cnt (b : Block) : b.resetRegisters.cnt = 0 := rfl
@[simp] theorem Block.resetRegisters_rck (b : Block) : b.resetRegisters.rck = 0 := rfl
@[simp] theorem Block.resetRegisters_code (b : Block) : b.resetRegisters.code = 0 := rfl
@[simp] theorem Block.resetRegisters_pacc (b : Block) : b.resetRegisters.pacc = 0 := rfl
@[simp] theorem Block.resetRegisters_got (b : Block) : b.resetRegisters.got = false := rfl
@[simp] theorem Block.resetRegisters_skip (b : Block) : b.resetRegisters.skip = false := rfl
@[simp] theorem Block.resetRegisters_trail (b : Block) : b.resetRegisters.trail = false := rfl
@[simp] theorem Block.resetRegisters_ckok (b : Block) : b.resetRegisters.ckok = false := rfl
@[simp] theorem Block.resetRegisters_dbuf (b : Block) : b.resetRegisters.dbuf = b.dbuf := rfl
@[simp] theorem Block.resetRegisters_nlen (b : Block) : b.resetRegisters.nlen = 0 := rfl
@[simp] theorem Block.resetRegisters_nbuf (b : Block) : b.resetRegisters.nbuf = b.nbuf := rfl

/-! `beginBuffer` (R171) -/

@[simp] theorem beginBuffer_acc (v : Byte) (b : Block) : (beginBuffer v b).acc = b.acc := rfl
@[simp] theorem beginBuffer_ctrl (v : Byte) (b : Block) : (beginBuffer v b).ctrl = b.ctrl := rfl
@[simp] theorem beginBuffer_pm (v : Byte) (b : Block) : (beginBuffer v b).pm = b.pre := rfl
@[simp] theorem beginBuffer_phase (v : Byte) (b : Block) : (beginBuffer v b).phase = b.phase := rfl
@[simp] theorem beginBuffer_type (v : Byte) (b : Block) : (beginBuffer v b).type = b.type := rfl
@[simp] theorem beginBuffer_len (v : Byte) (b : Block) : (beginBuffer v b).len = b.len := rfl
@[simp] theorem beginBuffer_cnt (v : Byte) (b : Block) : (beginBuffer v b).cnt = b.cnt := rfl
@[simp] theorem beginBuffer_rck (v : Byte) (b : Block) : (beginBuffer v b).rck = b.rck := rfl
@[simp] theorem beginBuffer_code (v : Byte) (b : Block) : (beginBuffer v b).code = v := rfl
@[simp] theorem beginBuffer_pacc (v : Byte) (b : Block) : (beginBuffer v b).pacc = b.pacc := rfl
@[simp] theorem beginBuffer_got (v : Byte) (b : Block) : (beginBuffer v b).got = true := rfl
@[simp] theorem beginBuffer_skip (v : Byte) (b : Block) : (beginBuffer v b).skip = b.skip := rfl
@[simp] theorem beginBuffer_trail (v : Byte) (b : Block) : (beginBuffer v b).trail = b.trail := rfl
@[simp] theorem beginBuffer_ckok (v : Byte) (b : Block) : (beginBuffer v b).ckok = b.ckok := rfl
@[simp] theorem beginBuffer_dbuf (v : Byte) (b : Block) : (beginBuffer v b).dbuf = b.dbuf := rfl
@[simp] theorem beginBuffer_nlen (v : Byte) (b : Block) : (beginBuffer v b).nlen = b.nlen := rfl
@[simp] theorem beginBuffer_nbuf (v : Byte) (b : Block) : (beginBuffer v b).nbuf = b.nbuf := rfl

/-! `rxType`, `rxLen`, `rxCks`, `rxDone` (R174, R175, R177, R178) -/

@[simp] theorem rxType_acc (v : Byte) (b : Block) : (rxType v b).acc = b.acc := rfl
@[simp] theorem rxType_ctrl (v : Byte) (b : Block) : (rxType v b).ctrl = b.ctrl := rfl
@[simp] theorem rxType_pm (v : Byte) (b : Block) : (rxType v b).pm = b.pm := rfl
@[simp] theorem rxType_phase (v : Byte) (b : Block) : (rxType v b).phase = .len := rfl
@[simp] theorem rxType_type (v : Byte) (b : Block) : (rxType v b).type = v := rfl
@[simp] theorem rxType_len (v : Byte) (b : Block) : (rxType v b).len = b.len := rfl
@[simp] theorem rxType_cnt (v : Byte) (b : Block) : (rxType v b).cnt = b.cnt := rfl
@[simp] theorem rxType_rck (v : Byte) (b : Block) : (rxType v b).rck = b.rck := rfl
@[simp] theorem rxType_code (v : Byte) (b : Block) : (rxType v b).code = b.code := rfl
@[simp] theorem rxType_pacc (v : Byte) (b : Block) : (rxType v b).pacc = v.zeroExtend 16 := rfl
@[simp] theorem rxType_got (v : Byte) (b : Block) : (rxType v b).got = b.got := rfl
@[simp] theorem rxType_skip (v : Byte) (b : Block) : (rxType v b).skip = b.skip := rfl
@[simp] theorem rxType_trail (v : Byte) (b : Block) : (rxType v b).trail = b.trail := rfl
@[simp] theorem rxType_ckok (v : Byte) (b : Block) : (rxType v b).ckok = b.ckok := rfl
@[simp] theorem rxType_dbuf (v : Byte) (b : Block) : (rxType v b).dbuf = b.dbuf := rfl
@[simp] theorem rxType_nlen (v : Byte) (b : Block) : (rxType v b).nlen = b.nlen := rfl
@[simp] theorem rxType_nbuf (v : Byte) (b : Block) : (rxType v b).nbuf = b.nbuf := rfl
@[simp] theorem rxLen_acc (v : Byte) (b : Block) : (rxLen v b).acc = b.acc := rfl
@[simp] theorem rxLen_ctrl (v : Byte) (b : Block) : (rxLen v b).ctrl = b.ctrl := rfl
@[simp] theorem rxLen_pm (v : Byte) (b : Block) : (rxLen v b).pm = b.pm := rfl
@[simp] theorem rxLen_phase (v : Byte) (b : Block) : (rxLen v b).phase = if v = 0 then .cks else .data := rfl
@[simp] theorem rxLen_type (v : Byte) (b : Block) : (rxLen v b).type = b.type := rfl
@[simp] theorem rxLen_len (v : Byte) (b : Block) : (rxLen v b).len = v := rfl
@[simp] theorem rxLen_cnt (v : Byte) (b : Block) : (rxLen v b).cnt = 0 := rfl
@[simp] theorem rxLen_rck (v : Byte) (b : Block) : (rxLen v b).rck = b.rck := rfl
@[simp] theorem rxLen_code (v : Byte) (b : Block) : (rxLen v b).code = b.code := rfl
@[simp] theorem rxLen_pacc (v : Byte) (b : Block) : (rxLen v b).pacc = b.pacc + v.zeroExtend 16 := rfl
@[simp] theorem rxLen_got (v : Byte) (b : Block) : (rxLen v b).got = b.got := rfl
@[simp] theorem rxLen_skip (v : Byte) (b : Block) : (rxLen v b).skip = b.skip := rfl
@[simp] theorem rxLen_trail (v : Byte) (b : Block) : (rxLen v b).trail = b.trail := rfl
@[simp] theorem rxLen_ckok (v : Byte) (b : Block) : (rxLen v b).ckok = b.ckok := rfl
@[simp] theorem rxLen_dbuf (v : Byte) (b : Block) : (rxLen v b).dbuf = b.dbuf := rfl
@[simp] theorem rxLen_nlen (v : Byte) (b : Block) : (rxLen v b).nlen = b.nlen := rfl
@[simp] theorem rxLen_nbuf (v : Byte) (b : Block) : (rxLen v b).nbuf = b.nbuf := rfl
@[simp] theorem rxCks_acc (v : Byte) (b : Block) : (rxCks v b).acc = b.acc := rfl
@[simp] theorem rxCks_ctrl (v : Byte) (b : Block) : (rxCks v b).ctrl = b.ctrl := rfl
@[simp] theorem rxCks_pm (v : Byte) (b : Block) : (rxCks v b).pm = b.pm := rfl
@[simp] theorem rxCks_phase (v : Byte) (b : Block) : (rxCks v b).phase = .done := rfl
@[simp] theorem rxCks_type (v : Byte) (b : Block) : (rxCks v b).type = b.type := rfl
@[simp] theorem rxCks_len (v : Byte) (b : Block) : (rxCks v b).len = b.len := rfl
@[simp] theorem rxCks_cnt (v : Byte) (b : Block) : (rxCks v b).cnt = b.cnt := rfl
@[simp] theorem rxCks_rck (v : Byte) (b : Block) : (rxCks v b).rck = v := rfl
@[simp] theorem rxCks_code (v : Byte) (b : Block) : (rxCks v b).code = b.code := rfl
@[simp] theorem rxCks_pacc (v : Byte) (b : Block) : (rxCks v b).pacc = b.pacc := rfl
@[simp] theorem rxCks_got (v : Byte) (b : Block) : (rxCks v b).got = b.got := rfl
@[simp] theorem rxCks_skip (v : Byte) (b : Block) : (rxCks v b).skip = b.skip := rfl
@[simp] theorem rxCks_trail (v : Byte) (b : Block) : (rxCks v b).trail = b.trail := rfl
@[simp] theorem rxCks_ckok (v : Byte) (b : Block) : (rxCks v b).ckok = b.checksumOk v := rfl
@[simp] theorem rxCks_dbuf (v : Byte) (b : Block) : (rxCks v b).dbuf = b.dbuf := rfl
@[simp] theorem rxCks_nlen (v : Byte) (b : Block) : (rxCks v b).nlen = b.nlen := rfl
@[simp] theorem rxCks_nbuf (v : Byte) (b : Block) : (rxCks v b).nbuf = b.nbuf := rfl
@[simp] theorem rxDone_acc (b : Block) : (rxDone b).acc = b.acc := rfl
@[simp] theorem rxDone_ctrl (b : Block) : (rxDone b).ctrl = b.ctrl := rfl
@[simp] theorem rxDone_pm (b : Block) : (rxDone b).pm = b.pm := rfl
@[simp] theorem rxDone_phase (b : Block) : (rxDone b).phase = b.phase := rfl
@[simp] theorem rxDone_type (b : Block) : (rxDone b).type = b.type := rfl
@[simp] theorem rxDone_len (b : Block) : (rxDone b).len = b.len := rfl
@[simp] theorem rxDone_cnt (b : Block) : (rxDone b).cnt = b.cnt := rfl
@[simp] theorem rxDone_rck (b : Block) : (rxDone b).rck = b.rck := rfl
@[simp] theorem rxDone_code (b : Block) : (rxDone b).code = b.code := rfl
@[simp] theorem rxDone_pacc (b : Block) : (rxDone b).pacc = b.pacc := rfl
@[simp] theorem rxDone_got (b : Block) : (rxDone b).got = b.got := rfl
@[simp] theorem rxDone_skip (b : Block) : (rxDone b).skip = b.skip := rfl
@[simp] theorem rxDone_trail (b : Block) : (rxDone b).trail = true := rfl
@[simp] theorem rxDone_ckok (b : Block) : (rxDone b).ckok = b.ckok := rfl
@[simp] theorem rxDone_dbuf (b : Block) : (rxDone b).dbuf = b.dbuf := rfl
@[simp] theorem rxDone_nlen (b : Block) : (rxDone b).nlen = b.nlen := rfl
@[simp] theorem rxDone_nbuf (b : Block) : (rxDone b).nbuf = b.nbuf := rfl

/-! `loadName` (log entry 11) -/

@[simp] theorem loadName_acc (name : List Byte) (b : Block) : (loadName name b).acc = b.acc := rfl
@[simp] theorem loadName_ctrl (name : List Byte) (b : Block) : (loadName name b).ctrl = b.ctrl := rfl
@[simp] theorem loadName_pm (name : List Byte) (b : Block) : (loadName name b).pm = b.pm := rfl
@[simp] theorem loadName_phase (name : List Byte) (b : Block) : (loadName name b).phase = b.phase := rfl
@[simp] theorem loadName_type (name : List Byte) (b : Block) : (loadName name b).type = b.type := rfl
@[simp] theorem loadName_len (name : List Byte) (b : Block) : (loadName name b).len = b.len := rfl
@[simp] theorem loadName_cnt (name : List Byte) (b : Block) : (loadName name b).cnt = b.cnt := rfl
@[simp] theorem loadName_rck (name : List Byte) (b : Block) : (loadName name b).rck = b.rck := rfl
@[simp] theorem loadName_code (name : List Byte) (b : Block) : (loadName name b).code = b.code := rfl
@[simp] theorem loadName_pacc (name : List Byte) (b : Block) : (loadName name b).pacc = b.pacc := rfl
@[simp] theorem loadName_got (name : List Byte) (b : Block) : (loadName name b).got = b.got := rfl
@[simp] theorem loadName_skip (name : List Byte) (b : Block) : (loadName name b).skip = b.skip := rfl
@[simp] theorem loadName_trail (name : List Byte) (b : Block) : (loadName name b).trail = b.trail := rfl
@[simp] theorem loadName_ckok (name : List Byte) (b : Block) : (loadName name b).ckok = b.ckok := rfl
@[simp] theorem loadName_dbuf (name : List Byte) (b : Block) : (loadName name b).dbuf = b.dbuf := rfl
@[simp] theorem loadName_nlen (name : List Byte) (b : Block) : (loadName name b).nlen = BitVec.ofNat 5 name.length := rfl

/-! `Block.mem` and `Block.withMem` (R11) -/

@[simp] theorem Block.mem_dbuf (b : Block) : b.mem .dbuf = b.dbuf := rfl
@[simp] theorem Block.mem_nbuf (b : Block) : b.mem .nbuf = b.nbuf := rfl
@[simp] theorem Block.withMem_dbuf (b : Block) (m : Memory) :
    b.withMem .dbuf m = { b with dbuf := m } := rfl
@[simp] theorem Block.withMem_nbuf (b : Block) (m : Memory) :
    b.withMem .nbuf m = { b with nbuf := m } := rfl

/-! `State.reset` -/

@[simp] theorem State.reset_block : State.reset.block = Block.reset := rfl
@[simp] theorem State.reset_launched : State.reset.launched = true := rfl

end Sys2Proof.Machine
end

