-- ==== Sys2Proof/Laws/Memory.lean ====
section
/-! SUPPORT. The laws of the buffers: a read after a write, the canonical form that every memory
operation keeps, and what reading a run of entries answers (spec/20_memory.md R60, R61). -/

namespace Sys2Proof.Machine

/-- A read after a write: the byte written at its index, the old entry at every other. -/
theorem Memory.read_write (m : Memory) (i a : Nat) (v : Byte) :
    Memory.read (Memory.write m i v) a = if a = i then some v else Memory.read m a := by
  induction m with
  | nil => simp only [Memory.write, Memory.read, eq_comm]
  | cons c m ih =>
    obtain ⟨j, w⟩ := c
    have hc : (i = a) = (a = i) := propext eq_comm
    simp only [Memory.write]
    split
    · simp only [Memory.read, hc]
    · split
      · subst_vars
        simp only [Memory.read, hc]
        split <;> rfl
      · simp only [Memory.read, ih]
        by_cases hj : j = a
        · rw [if_pos hj, if_neg (by omega), if_pos hj]
        · rw [if_neg hj, if_neg hj]

theorem Memory.mem_write {m : Memory} {i : Nat} {v : Byte} {c : Host.Cell}
    (h : c ∈ Memory.write m i v) : c = (i, v) ∨ c ∈ m := by
  induction m with
  | nil => simpa [Memory.write] using h
  | cons d m ih =>
    obtain ⟨j, w⟩ := d
    simp only [Memory.write] at h
    split at h
    · simpa using h
    · split at h
      · rcases List.mem_cons.mp h with h | h
        · exact .inl h
        · exact .inr (List.mem_cons_of_mem _ h)
      · rcases List.mem_cons.mp h with h | h
        · exact .inr (by simp [h])
        · exact (ih h).imp_right (List.mem_cons_of_mem _)

/-- Writing inside the buffer keeps the canonical form. -/
theorem Memory.write_wf {size i : Nat} {m : Memory} (v : Byte) (h : Memory.wf size m)
    (hi : i < size) : Memory.wf size (Memory.write m i v) := by
  refine ⟨?_, fun c hc => ?_⟩
  · have hp := h.1
    clear h
    induction m with
    | nil => simp [Memory.write]
    | cons d m ih =>
      obtain ⟨j, w⟩ := d
      obtain ⟨hj, hm⟩ := List.pairwise_cons.mp hp
      simp only [Memory.write]
      split
      · refine List.pairwise_cons.mpr ⟨fun c hc => ?_, hp⟩
        rcases List.mem_cons.mp hc with rfl | hc
        · assumption
        · exact Nat.lt_trans ‹i < j› (hj c hc)
      · split
        · subst_vars; exact List.pairwise_cons.mpr ⟨hj, hm⟩
        · refine List.pairwise_cons.mpr ⟨fun c hc => ?_, ih hm⟩
          rcases Memory.mem_write hc with rfl | hc
          · show j < i; omega
          · exact hj c hc
  · rcases Memory.mem_write hc with rfl | hc
    · exact hi
    · exact h.2 c hc

@[simp] theorem Memory.nil_wf (size : Nat) : Memory.wf size [] :=
  ⟨List.Pairwise.nil, fun _ h => absurd h List.not_mem_nil⟩

/-- The buffers of the reset state have the canonical form. -/
theorem Block.reset_wf :
    Memory.wf Config.dbufN Block.reset.dbuf ∧ Memory.wf Config.nbufN Block.reset.nbuf :=
  ⟨Memory.nil_wf _, Memory.nil_wf _⟩

/-- The one store of the block keeps the canonical form of the buffer it stores to. -/
theorem Block.writeEntry_wf {b b' : Block} {k : Buffer} {i : Nat} {v : Byte}
    (h : b.writeEntry k i v = .ok b') (hm : Memory.wf (bufferSize k) (b.mem k)) :
    Memory.wf (bufferSize k) (b'.mem k) := by
  simp only [Block.writeEntry] at h
  split at h
  · injection h with h
    subst h
    cases k <;> exact Memory.write_wf v hm ‹_›
  · cases h

/-- Reading `n` entries that all hold a value answers them, inside the buffer. -/
theorem Block.readEntries_of_firstFrom {b : Block} {k : Buffer} :
    ∀ {n i : Nat} {vs : List Byte}, i + n ≤ bufferSize k → (b.mem k).firstFrom i n = some vs →
      b.readEntries k i n = .ok vs
  | 0, i, vs, _, h => by
    simp only [Memory.firstFrom, Option.some.injEq] at h
    simp [Block.readEntries, ← h]
  | n + 1, i, vs, hi, h => by
    simp only [Memory.firstFrom] at h
    split at h
    · rename_i v ws hv hws
      injection h with h
      have hlt : i < bufferSize k := by omega
      have hr := Block.readEntries_of_firstFrom (b := b) (k := k) (n := n) (i := i + 1) (by omega) hws
      simp [Block.readEntries, Block.readEntry, hlt, hv, hr, h]
    · cases h

/-- Reading `n` entries of which one holds no value faults at the first such entry. -/
theorem Block.readEntries_of_firstFrom_none {b : Block} {k : Buffer} :
    ∀ {n i : Nat}, i + n ≤ bufferSize k → (b.mem k).firstFrom i n = none →
      ∃ a, i ≤ a ∧ a < i + n ∧ (b.mem k).read a = none ∧
        b.readEntries k i n = .error (.noValue k a)
  | 0, i, _, h => by simp [Memory.firstFrom] at h
  | n + 1, i, hi, h => by
    have hlt : i < bufferSize k := by omega
    cases hv : (b.mem k).read i with
    | none =>
      exact ⟨i, Nat.le_refl _, by omega, hv, by simp [Block.readEntries, Block.readEntry, hlt, hv]⟩
    | some v =>
      have hn : (b.mem k).firstFrom (i + 1) n = none := by
        cases hf : (b.mem k).firstFrom (i + 1) n with
        | none => rfl
        | some ws => simp [Memory.firstFrom, hv, hf] at h
      obtain ⟨a, h1, h2, h3, h4⟩ := Block.readEntries_of_firstFrom_none (b := b) (k := k) (by omega) hn
      exact ⟨a, by omega, by omega, h3, by simp [Block.readEntries, Block.readEntry, hlt, hv, h4]⟩

/-- A run of entries has as many bytes as were asked for. -/
theorem Memory.firstFrom_length {m : Memory} :
    ∀ {n i : Nat} {vs : List Byte}, m.firstFrom i n = some vs → vs.length = n
  | 0, _, _, h => by simp only [Memory.firstFrom, Option.some.injEq] at h; simp [← h]
  | n + 1, i, vs, h => by
    simp only [Memory.firstFrom] at h
    split at h
    · rename_i v ws _ hws
      injection h with h
      simp [← h, Memory.firstFrom_length hws]
    · cases h

/-- A run of entries depends on those entries alone. -/
theorem Memory.firstFrom_congr {m m' : Memory} :
    ∀ {n i : Nat}, (∀ a, i ≤ a → a < i + n → m.read a = m'.read a) →
      m.firstFrom i n = m'.firstFrom i n
  | 0, _, _ => rfl
  | n + 1, i, h => by
    simp only [Memory.firstFrom]
    rw [h i (Nat.le_refl _) (by omega),
      Memory.firstFrom_congr (n := n) (i := i + 1) (fun a h1 h2 => h a (by omega) (by omega))]

/-- Storing right after a run of entries makes it one byte longer (the post-increment store, R61). -/
theorem Memory.firstFrom_write {m : Memory} (v : Byte) :
    ∀ {n i : Nat} {vs : List Byte}, m.firstFrom i n = some vs →
      (Memory.write m (i + n) v).firstFrom i (n + 1) = some (vs ++ [v])
  | 0, i, vs, h => by
    simp only [Memory.firstFrom, Option.some.injEq] at h
    simp [Memory.firstFrom, Memory.read_write, ← h]
  | n + 1, i, vs, h => by
    simp only [Memory.firstFrom] at h
    split at h
    · rename_i w ws hw hws
      injection h with h
      have ih := Memory.firstFrom_write (m := m) v hws
      rw [Memory.firstFrom, Memory.read_write, if_neg (by omega), hw,
        show i + (n + 1) = i + 1 + n by omega, ih]
      simp [← h]
    · cases h

/-- The entry at an index of a run of entries. -/
theorem Memory.read_of_firstFrom {m : Memory} :
    ∀ {n i : Nat} {vs : List Byte}, m.firstFrom i n = some vs → ∀ k, k < n →
      m.read (i + k) = vs[k]?
  | 0, _, _, _, k, hk => by omega
  | n + 1, i, vs, h, k, hk => by
    simp only [Memory.firstFrom] at h
    split at h
    · rename_i w ws hw hws
      injection h with h
      subst h
      cases k with
      | zero => simpa using hw
      | succ k =>
        have := Memory.read_of_firstFrom hws k (by omega)
        rw [show i + (k + 1) = i + 1 + k by omega, this]
        simp
    · cases h

end Sys2Proof.Machine
end

