-- ==== Sys2Proof/Laws/Ops.lean ====
section
/-! SUPPORT. What each shared operation can do, said once: performing an operation, storing to a buffer,
and reading the filename (spec/60_exceptions.md R231, spec/20_memory.md R61). -/

namespace Sys2Proof.Machine

/-- Performing an operation answers a next state exactly when the block has been reset and the operation
answers an effect. -/
theorem State.perform_eq_next_iff {s t : State} {op : Block → Effect} :
    s.perform op = .next t ↔
      s.launched = true ∧ ∃ b outs, op s.block = .ok (b, outs) ∧ t = s.commit b outs := by
  constructor
  · intro h
    simp only [State.perform] at h
    split at h
    · split at h
      · rename_i b outs hop
        injection h with h
        exact ⟨‹_›, b, outs, hop, h.symm⟩
      · cases h
    · cases h
  · rintro ⟨hl, b, outs, hop, rfl⟩
    simp [State.perform, hl, hop]

/-- The operation's effect, committed. -/
theorem State.perform_ok {s : State} {op : Block → Effect} {b : Block} {outs : List OutEvent}
    (hl : s.launched = true) (h : op s.block = .ok (b, outs)) :
    s.perform op = .next (s.commit b outs) :=
  State.perform_eq_next_iff.mpr ⟨hl, b, outs, h, rfl⟩

/-- An operation that emits nothing. -/
theorem State.perform_quiet {s : State} {op : Block → Effect} {b : Block}
    (hl : s.launched = true) (h : op s.block = quiet b) :
    s.perform op = .next { s with block := b } := by
  rw [State.perform_ok hl h]; simp [State.commit]

/-- An operation that emits one output. -/
theorem State.perform_emit {s : State} {op : Block → Effect} {b : Block} {o : OutEvent}
    (hl : s.launched = true) (h : op s.block = emit o b) :
    s.perform op = .next { s with block := b, output := s.output ++ [o] } :=
  State.perform_ok hl h

/-- A fault of the operation is a fault of the machine. -/
theorem State.perform_fault {s : State} {op : Block → Effect} {f : Fault}
    (hl : s.launched = true) (h : op s.block = .error f) : s.perform op = .fault f := by
  simp [State.perform, hl, h]

/-- Before the first `RST` every operation performed is refused (R239 (a)). -/
theorem State.perform_beforeReset {s : State} (op : Block → Effect) (hl : s.launched = false) :
    s.perform op = .refused .beforeReset := by
  simp [State.perform, hl]

/-- A store inside the buffer. -/
theorem Block.writeEntry_ok {b : Block} {k : Buffer} {i : Nat} (v : Byte) (h : i < bufferSize k) :
    b.writeEntry k i v = .ok (b.withMem k ((b.mem k).write i v)) := by
  simp [Block.writeEntry, h]

/-- `NM_PUT` with fewer than 24 bytes held (R144). -/
theorem nmPut_of_lt {b : Block} (v : Byte) (h : b.nlen.toNat < 24) :
    nmPut v b = quiet { b with nlen := b.nlen + 1, nbuf := b.nbuf.write b.nlen.toNat v } := by
  have hlt : b.nlen < 24 := by simpa [BitVec.lt_def] using h
  have hi : b.nameIndex < bufferSize .nbuf := h
  simp only [nmPut, if_pos hlt, Block.writeEntry_ok v hi]
  rfl

/-- `NM_PUT` with 24 bytes or more offered (R144). -/
theorem nmPut_of_ge {b : Block} (v : Byte) (h : 24 ≤ b.nlen.toNat) :
    nmPut v b = quiet { b with nlen := 25 } := by
  have hlt : ¬ b.nlen < 24 := by simpa [BitVec.lt_def] using h
  simp only [nmPut, if_neg hlt]

/-- Arm `DATA` while `CNT` is an index of `DBUF` (R176). -/
theorem rxData_of_lt {b : Block} (v : Byte) (h : b.cnt.toNat < 255) :
    rxData v b = .ok { b with
      dbuf := b.dbuf.write b.cnt.toNat v, pacc := b.pacc + v.zeroExtend 16, cnt := b.cnt + 1,
      phase := if b.cnt + 1 = b.len then .cks else b.phase } := by
  have hi : b.dataIndex < bufferSize .dbuf := h
  simp only [rxData, Block.writeEntry_ok v hi]
  rfl

/-- `RX_END` where the data bytes are held (R179). -/
theorem endBuffer_of_dataHeld {b : Block} {data : List Byte} (h : b.dataHeld = some data) :
    endBuffer b = emit (.res (b.result data)) b.clearParser := by
  have hs : 0 + b.cnt.toNat ≤ bufferSize .dbuf := by
    have := b.cnt.isLt; simp only [bufferSize, Config.dbufN]; omega
  simp only [endBuffer, Block.readEntries_of_firstFrom (k := .dbuf) hs h]

/-- `ENC_DIR` with an over-long filename (R221). -/
theorem encodeDirectory_overflow {b : Block} (sf : Byte) (h : b.nlen.toNat = 25) :
    encodeDirectory sf b = emit (.err .invalidFilename) b := by
  have hn : b.novf = true := by
    simp only [Block.novf, beq_iff_eq]; exact BitVec.eq_of_toNat_eq h
  simp [encodeDirectory, hn, raise]

/-- `ENC_DIR` with a reserved search form (R222). -/
theorem encodeDirectory_badForm {b : Block} {sf : Byte} (h : b.nlen.toNat ≤ 24)
    (hsf : sf.toNat > 4) : encodeDirectory sf b = emit (.err .badSearchForm) b := by
  have hn : b.novf = false := by
    simp only [Block.novf, beq_eq_false_iff_ne, ne_eq]
    intro hc; simp [hc] at h
  have hs : sf > lastSearchForm := by
    simpa [lastSearchForm, BitVec.lt_def] using hsf
  simp [encodeDirectory, hn, raise, hs]

/-- `ENC_DIR` with a filename held and a search form of the table (R146). -/
theorem encodeDirectory_of_nameHeld {b : Block} {sf : Byte} {name : List Byte}
    (h : b.nlen.toNat ≤ 24) (hsf : sf.toNat ≤ 4) (hh : b.nameHeld = some name) :
    encodeDirectory sf b = emit (.txf (directoryFrame sf name)) b := by
  have hn : b.novf = false := by
    simp only [Block.novf, beq_eq_false_iff_ne, ne_eq]
    intro hc; simp [hc] at h
  have hs : ¬ sf > lastSearchForm := by
    simpa [lastSearchForm, BitVec.lt_def] using hsf
  rw [Block.nameHeld, Nat.min_eq_left h] at hh
  have hr := Block.readEntries_of_firstFrom (b := b) (k := .nbuf) (i := 0) (n := b.nlen.toNat)
    (by simpa [bufferSize, Config.nbufN] using h) hh
  simp [encodeDirectory, hn, hs, hr]

end Sys2Proof.Machine
end

