-- ==== Sys2Proof/Laws/Invariant.lean ====
section
/-! SUPPORT. The block's operations keep the invariant of spec/10_state.md R44: one lemma per arm of `RX`
and one per other operation that writes state. -/

namespace Sys2Proof.Machine

/-- In the phases before the type byte the buffer is a format-F one (R44 (I3)). -/
theorem Block.Inv.pm_of_hunting {b : Block} (h : b.Inv)
    (hp : b.phase = .hunt ∨ b.phase = .pre2 ∨ b.phase = .type) : b.pm = true := by
  cases hpm : b.pm with
  | false => rcases h.rspPhases hpm with ⟨h1 | h1 | h1 | h1 | h1, _⟩ <;> simp [h1] at hp
  | true => rfl

/-- A buffer is in progress outside `IDLE` (R44 (I1)). -/
theorem Block.Inv.got_of_busy {b : Block} (h : b.Inv) (hp : b.phase ≠ .idle) : b.got = true := by
  cases hg : b.got with
  | false => exact absurd (h.gotIffBusy.mpr hg) hp
  | true => rfl

/-- `TRAIL` and `CKOK` are 0 before `DONE` (R44 (I9)). -/
theorem Block.Inv.flags_of_not_done {b : Block} (h : b.Inv) (hp : b.phase ≠ .done) :
    b.trail = false ∧ b.ckok = false := by
  refine ⟨?_, ?_⟩
  · cases ht : b.trail with
    | false => rfl
    | true => exact absurd (h.doneFlags.1 (.inl ht)) hp
  · cases hc : b.ckok with
    | false => rfl
    | true => exact absurd (h.doneFlags.1 (.inr hc)) hp

/-- The reset values meet R44 with any two canonical buffers. -/
theorem Block.resetWith_inv {dbuf nbuf : Memory} (hd : Memory.wf Config.dbufN dbuf)
    (hn : Memory.wf Config.nbufN nbuf) : (Block.resetWith dbuf nbuf).Inv where
  gotIffBusy := by simp [Block.resetWith]
  idleClear := by simp [Block.resetWith]
  rspPhases := by simp [Block.resetWith]
  beforeType := by simp [Block.resetWith]
  atLength := by simp [Block.resetWith]
  inData := by simp [Block.resetWith]
  afterData := by simp [Block.resetWith]
  sumHeld := ⟨[], rfl, by simp [Block.resetWith]⟩
  doneFlags := by simp [Block.resetWith]
  nlenBound := by simp [Block.resetWith]
  nameKept := ⟨[], rfl⟩
  dbufWf := hd
  nbufWf := hn
  reservedZero := by
    show ctrlReset &&& 0xFE#8 = 0
    decide

/-- `RX_END` leaves a block that meets R44 (R179). -/
theorem Block.clearParser_inv {b : Block} (h : b.Inv) : b.clearParser.Inv where
  gotIffBusy := by simp
  idleClear := by simp
  rspPhases := by simp
  beforeType := by simp
  atLength := by simp
  inData := by simp
  afterData := by simp
  sumHeld := ⟨[], rfl, by simp⟩
  doneFlags := by simp
  nlenBound := h.nlenBound
  nameKept := h.nameKept
  dbufWf := h.dbufWf
  nbufWf := h.nbufWf
  reservedZero := h.reservedZero

/-- The checksum port is outside R44 (R70). -/
theorem Block.Inv.withAcc {b : Block} (h : b.Inv) (a : AccWord) : Block.Inv { b with acc := a } :=
  ⟨h.1, h.2, h.3, h.4, h.5, h.6, h.7, h.8, h.9, h.10, h.11, h.12, h.13, h.14⟩

/-- `SET_PRE` keeps the reserved bits (R23, R24). -/
theorem Block.Inv.withPre {b : Block} (h : b.Inv) (v : Bool) :
    Block.Inv { b with ctrl := ctrlWithPre b.ctrl v } := by
  have hr : ctrlWithPre b.ctrl v &&& 0xFE#8 = 0 := by
    rw [ctrlWithPre, h.reservedZero]; cases v <;> decide
  exact ⟨h.1, h.2, h.3, h.4, h.5, h.6, h.7, h.8, h.9, h.10, h.11, h.12, h.13, hr⟩

/-- The filename port: any count up to 25 whose entries hold values (R144). -/
theorem Block.Inv.withName {b : Block} (h : b.Inv) {n : NlenWord} {m : Memory} {name : List Byte}
    (hn : n.toNat ≤ 25) (hm : Memory.wf Config.nbufN m)
    (hh : m.firstFrom 0 (min n.toNat 24) = some name) : Block.Inv { b with nlen := n, nbuf := m } :=
  ⟨h.1, h.2, h.3, h.4, h.5, h.6, h.7, h.8, h.9, hn, ⟨name, hh⟩, h.12, hm, h.14⟩

/-- Arm `TYPE` (R174). -/
theorem rxType_inv {b : Block} (v : Byte) (h : b.Inv) (hp : b.phase = .type) :
    (rxType v b).Inv := by
  have hb := h.beforeType (by simp [hp])
  have hpm : b.pm = true := h.pm_of_hunting (by simp [hp])
  obtain ⟨d, hd, hs⟩ := h.sumHeld
  constructor
  · simp [h.got_of_busy (by simp [hp])]
  · simp
  · simp [hpm]
  · simp
  · simp [hb, BitVec.toNat_setWidth]; have := v.isLt; omega
  · simp
  · simp
  · exact ⟨d, hd, by simp⟩
  · simp [h.flags_of_not_done (by simp [hp])]
  · exact h.nlenBound
  · exact h.nameKept
  · exact h.dbufWf
  · exact h.nbufWf
  · exact h.reservedZero

/-- The first byte of a format-RSP buffer (R171, R174). -/
theorem rxTypeIdle_inv {b : Block} (v : Byte) (h : b.Inv) (hp : b.phase = .idle) :
    (rxType v (beginBuffer v b)).Inv := by
  have hb := h.idleClear hp
  obtain ⟨d, hd, hs⟩ := h.sumHeld
  constructor
  · simp
  · simp
  · simp [hb]
  · simp
  · simp [hb, BitVec.toNat_setWidth]; have := v.isLt; omega
  · simp
  · simp
  · exact ⟨d, hd, by simp⟩
  · simp [hb]
  · exact h.nlenBound
  · exact h.nameKept
  · exact h.dbufWf
  · exact h.nbufWf
  · exact h.reservedZero

/-- The first byte of a format-F buffer (R171, R172). -/
theorem rxHuntIdle_inv {b : Block} (v : Byte) (h : b.Inv) (hp : b.phase = .idle) (hpre : b.pre = true) :
    (rxHunt v (beginBuffer v b)).Inv := by
  have hb := h.idleClear hp
  obtain ⟨d, hd, hs⟩ := h.sumHeld
  unfold rxHunt
  split
  all_goals
    constructor
    · simp [beginBuffer]
    · simp
    · simp [beginBuffer, hpre]
    · simp [beginBuffer, hb]
    · simp
    · simp
    · simp
    · exact ⟨d, hd, by simp⟩
    · simp [beginBuffer,hb]
    · exact h.nlenBound
    · exact h.nameKept
    · exact h.dbufWf
    · exact h.nbufWf
    · exact h.reservedZero

/-- Arms `HUNT` and `PRE2` (R172, R173). -/
theorem rxHuntPre_inv {b : Block} (v : Byte) (h : b.Inv) (hp : b.phase = .hunt ∨ b.phase = .pre2) :
    (rxHunt v b).Inv ∧ (rxPre2 v b).Inv := by
  have hb := h.beforeType (by rcases hp with hp | hp <;> simp [hp])
  have hpm : b.pm = true := h.pm_of_hunting (by rcases hp with hp | hp <;> simp [hp])
  obtain ⟨d, hd, hs⟩ := h.sumHeld
  have hg : b.got = true := h.got_of_busy (by rcases hp with hp | hp <;> simp [hp])
  have hf := h.flags_of_not_done (by rcases hp with hp | hp <;> simp [hp])
  unfold rxHunt rxPre2
  constructor
  all_goals
    split
    all_goals
      constructor
      · simp [hg]
      · simp
      · simp [hpm]
      · simp [hb]
      · simp
      · simp
      · simp
      · exact ⟨d, hd, by simp⟩
      · simp [hf]
      · exact h.nlenBound
      · exact h.nameKept
      · exact h.dbufWf
      · exact h.nbufWf
      · exact h.reservedZero

/-- Arm `LEN` (R175). -/
theorem rxLen_inv {b : Block} (v : Byte) (h : b.Inv) (hp : b.phase = .len) : (rxLen v b).Inv := by
  have hb := h.atLength hp
  obtain ⟨d, hd, hs⟩ := h.sumHeld
  have hg : b.got = true := h.got_of_busy (by simp [hp])
  have hf := h.flags_of_not_done (by simp [hp])
  have hd0 : d = [] := by simp [Block.dataHeld, hb, Memory.firstFrom] at hd; exact hd
  have h1 := v.isLt
  have h2 := b.type.isLt
  constructor
  · simp [hg]; split <;> simp
  · simp; split <;> simp
  · intro hpm; have := h.rspPhases hpm; by_cases hv : v = 0#8 <;> simp [hv, this]
  · simp; split <;> simp
  · simp; split <;> simp
  · intro hph
    by_cases hv : v = 0#8
    · simp [hv] at hph
    · have : v.toNat ≠ 0 := fun hc => hv (BitVec.eq_of_toNat_eq hc)
      simp; omega
  · by_cases hv : v = 0#8 <;> simp [hv]
  · refine ⟨[], by simp [Block.dataHeld, Memory.firstFrom], ?_⟩
    simp [BitVec.toNat_setWidth, hb]; omega
  · simp [hf]; split <;> simp
  · exact h.nlenBound
  · exact h.nameKept
  · exact h.dbufWf
  · exact h.nbufWf
  · exact h.reservedZero

/-- Arm `DATA` (R176): the store is inside `DBUF` and the sum does not overflow (R29). -/
theorem rxData_inv {b : Block} (v : Byte) (h : b.Inv) (hp : b.phase = .data) :
    ∃ b', rxData v b = .ok b' ∧ b'.Inv := by
  have hb := h.inData hp
  obtain ⟨d, hd, hs⟩ := h.sumHeld
  have hg : b.got = true := h.got_of_busy (by simp [hp])
  have hf := h.flags_of_not_done (by simp [hp])
  have h1 := v.isLt
  have h2 := b.type.isLt
  have h3 := b.len.isLt
  have hlt : b.cnt.toNat < 255 := by omega
  have hs := hs (by simp [hp])
  have hdl := Memory.firstFrom_length hd
  have hle := byteSum_le d
  refine ⟨_, rxData_of_lt v hlt, ?_⟩
  have hc1 : (b.cnt + 1).toNat = b.cnt.toNat + 1 := by simp [BitVec.toNat_add]; omega
  constructor
  · simp [hg]; split <;> simp [hp]
  · simp; split <;> simp [hp]
  · intro hpm; have := h.rspPhases hpm; by_cases hv : b.cnt + 1#8 = b.len <;> simp [hv, this, hp]
  · simp; split <;> simp [hp]
  · simp; split <;> simp [hp]
  · intro hph
    by_cases hv : b.cnt + 1 = b.len
    · have hph' : (if b.cnt + 1 = b.len then Phase.cks else b.phase) = .data := hph
      rw [if_pos hv] at hph'
      cases hph'
    · have : (b.cnt + 1).toNat ≠ b.len.toNat := fun hc => hv (BitVec.eq_of_toNat_eq hc)
      show 1 ≤ b.len.toNat ∧ (b.cnt + 1).toNat < b.len.toNat
      omega
  · simp; split <;> simp_all
  · refine ⟨d ++ [v], ?_, ?_⟩
    · have := Memory.firstFrom_write v hd
      simp only [Block.dataHeld, hc1]
      simpa using this
    · intro _
      simp [BitVec.toNat_add, BitVec.toNat_setWidth]; omega
  · simp [hf]; split <;> simp [hp]
  · exact h.nlenBound
  · exact h.nameKept
  · exact Memory.write_wf v h.dbufWf hlt
  · exact h.nbufWf
  · exact h.reservedZero

/-- Arm `CKS` (R177). -/
theorem rxCks_inv {b : Block} (v : Byte) (h : b.Inv) (hp : b.phase = .cks) : (rxCks v b).Inv := by
  obtain ⟨d, hd, hs⟩ := h.sumHeld
  have hg : b.got = true := h.got_of_busy (by simp [hp])
  constructor
  · simp [hg]
  · simp
  · intro hpm; have := h.rspPhases hpm; simp [this]
  · simp
  · simp
  · simp
  · simp; exact h.afterData (by simp [hp])
  · exact ⟨d, hd, fun _ => hs (by simp [hp])⟩
  · exact ⟨fun _ => rfl, fun _ => rfl⟩
  · exact h.nlenBound
  · exact h.nameKept
  · exact h.dbufWf
  · exact h.nbufWf
  · exact h.reservedZero

/-- Arm `DONE` (R178). -/
theorem rxDone_inv {b : Block} (h : b.Inv) (hp : b.phase = .done) : (rxDone b).Inv := by
  obtain ⟨d, hd, hs⟩ := h.sumHeld
  constructor
  · exact h.gotIffBusy
  · simp [hp]
  · intro hpm; have := h.rspPhases hpm; simp [this, hp]
  · simp [hp]
  · simp [hp]
  · simp [hp]
  · simp; exact h.afterData
  · exact ⟨d, hd, hs⟩
  · exact ⟨fun _ => hp, fun _ => h.doneFlags.2 hp⟩
  · exact h.nlenBound
  · exact h.nameKept
  · exact h.dbufWf
  · exact h.nbufWf
  · exact h.reservedZero

/-- `RX` completes in every state that meets R44, and keeps it (R186). -/
theorem receive_inv {b : Block} (v : Byte) (h : b.Inv) : ∃ b', receive v b = .ok b' ∧ b'.Inv := by
  unfold receive
  split
  · rename_i hp
    refine ⟨_, rfl, ?_⟩
    split
    · exact rxHuntIdle_inv v h hp ‹_›
    · exact rxTypeIdle_inv v h hp
  · exact ⟨_, rfl, (rxHuntPre_inv v h (.inl ‹_›)).1⟩
  · exact ⟨_, rfl, (rxHuntPre_inv v h (.inr ‹_›)).2⟩
  · exact ⟨_, rfl, rxType_inv v h ‹_›⟩
  · exact ⟨_, rfl, rxLen_inv v h ‹_›⟩
  · exact rxData_inv v h ‹_›
  · exact ⟨_, rfl, rxCks_inv v h ‹_›⟩
  · exact ⟨_, rfl, rxDone_inv h ‹_›⟩

/-- `RX` of every byte in order keeps R44. -/
theorem receiveAll_inv {b : Block} (vs : List Byte) (h : b.Inv) :
    ∃ b', receiveAll vs b = .ok b' ∧ b'.Inv := by
  induction vs generalizing b with
  | nil => exact ⟨b, rfl, h⟩
  | cons v vs ih =>
    obtain ⟨b1, h1, hi1⟩ := receive_inv v h
    obtain ⟨b2, h2, hi2⟩ := ih hi1
    exact ⟨b2, by simp [receiveAll, h1, h2], hi2⟩

/-- `NM_PUT` keeps R44 (R144). -/
theorem nmPut_inv {b : Block} (v : Byte) (h : b.Inv) :
    ∃ b', nmPut v b = quiet b' ∧ b'.Inv := by
  obtain ⟨name, hname⟩ := h.nameKept
  by_cases hlt : b.nlen.toNat < 24
  · refine ⟨_, nmPut_of_lt v hlt, ?_⟩
    have hn : (b.nlen + 1).toNat = b.nlen.toNat + 1 := by
      simp [BitVec.toNat_add]; omega
    rw [Block.nameHeld, Nat.min_eq_left (by omega)] at hname
    refine h.withName (name := name ++ [v]) (by omega) (Memory.write_wf v h.nbufWf hlt) ?_
    rw [hn, Nat.min_eq_left (by omega)]
    simpa using Memory.firstFrom_write v hname
  · refine ⟨_, nmPut_of_ge v (by omega), ?_⟩
    have hb := h.nlenBound
    rw [Block.nameHeld, Nat.min_eq_right (by omega)] at hname
    exact h.withName (name := name) (by decide) h.nbufWf hname

end Sys2Proof.Machine
end

