-- ==== Sys2Proof/Laws/Exec.lean ====
section
/-! SUPPORT. What `exec` can do, said once: every operation but `RST` performs its operation of the
block, and what a next state of it is. Proofs over all instructions start here. -/

namespace Sys2Proof.Machine

/-- The operation of the block each row performs; `RST` as the effect of `Block.resetRegisters`. -/
def blockOp (i : Instr) : Block → Effect :=
  match i with
  | .rst => fun b => quiet b.resetRegisters
  | .setPre v => setPre v
  | .rd r => readRegister r
  | .csClr => csClr
  | .csPut v => csPut v
  | .nmClr => nmClr
  | .nmPut v => nmPut v
  | .encSimple t trail => encodeSimple t trail
  | .encDir sf => encodeDirectory sf
  | .rx v => receiveByte v
  | .rxEnd => endBuffer
  | .driveStatus => encodeSimple RequestType.driveStatus.code false
  | .driveStatusCr => encodeSimple RequestType.driveStatus.code true
  | .driveCondition => encodeSimple RequestType.driveCondition.code false
  | .close => encodeSimple RequestType.close.code false
  | .format => encodeSimple RequestType.format.code false
  | .formatCr => encodeSimple RequestType.format.code true
  | .erase => encodeSimple RequestType.erase.code false
  | .dirRef => encodeDirectory SearchForm.ref.code
  | .dirFirst => encodeDirectory SearchForm.first.code
  | .dirNext => encodeDirectory SearchForm.next.code
  | .dirPrev => encodeDirectory SearchForm.prev.code
  | .dirEnd => encodeDirectory SearchForm.endRef.code
  | .rspReadFileMore len data cks => deliverBuffer (responseFrame .readFileMore len data cks)
  | .rspDirectoryMore len data cks => deliverBuffer (responseFrame .directoryMore len data cks)
  | .rspGeneric12 len data cks => deliverBuffer (responseFrame .generic12 len data cks)
  | .rspDriveCondition len data cks => deliverBuffer (responseFrame .driveCondition len data cks)

/-- Every operation but `RST` is its operation of the block, performed. -/
theorem exec_eq_perform {i : Instr} (h : i ≠ .rst) (s : State) :
    exec i s = s.perform (blockOp i) := by
  cases i <;> first | rfl | exact absurd rfl h

/-- On a machine that has been reset, so is `RST`. -/
theorem exec_eq_perform_of_launched (i : Instr) {s : State} (hl : s.launched = true) :
    exec i s = s.perform (blockOp i) := by
  cases i <;> first
    | rfl
    | simp [exec, execRst, State.perform, hl, blockOp, quiet, State.commit]

/-- Every next state of an operation: the block's effect committed on a machine that has been reset, or
the reset. -/
theorem exec_eq_next {i : Instr} {s t : State} (h : exec i s = .next t) :
    (i = .rst ∧ t = { s with block := s.block.resetRegisters, launched := true }) ∨
    (i ≠ .rst ∧ s.launched = true ∧
      ∃ b outs, blockOp i s.block = .ok (b, outs) ∧ t = s.commit b outs) := by
  by_cases hi : i = .rst
  · subst hi
    exact .inl ⟨rfl, by injection h with h; exact h.symm⟩
  · rw [exec_eq_perform hi] at h
    exact .inr ⟨hi, State.perform_eq_next_iff.mp h⟩

end Sys2Proof.Machine
end

