-- ==== Sys2Proof/Laws/Effects.lean ====
section
/-! SUPPORT. What each operation of the block can do when it answers an effect, and that each answers one
from every block that meets the invariant (spec/60_exceptions.md R239). -/

namespace Sys2Proof.Machine

/-! ### What an effect is -/

/-- `NM_PUT` stores and counts, or saturates (R144). -/
theorem nmPut_cases {v : Byte} {b b' : Block} {outs : List OutEvent}
    (h : nmPut v b = .ok (b', outs)) :
    outs = [] ∧
    ((b.nlen.toNat < 24 ∧
        b' = { b with nlen := b.nlen + 1, nbuf := b.nbuf.write b.nlen.toNat v }) ∨
      (24 ≤ b.nlen.toNat ∧ b' = { b with nlen := 25 })) := by
  by_cases hlt : b.nlen.toNat < 24
  · rw [nmPut_of_lt v hlt] at h
    simp only [quiet, Except.ok.injEq, Prod.mk.injEq] at h
    exact ⟨h.2.symm, .inl ⟨hlt, h.1.symm⟩⟩
  · rw [nmPut_of_ge v (by omega)] at h
    simp only [quiet, Except.ok.injEq, Prod.mk.injEq] at h
    exact ⟨h.2.symm, .inr ⟨by omega, h.1.symm⟩⟩

/-- `ENC_DIR` writes no state and emits one frame or one error (R142, R146). -/
theorem encodeDirectory_cases {sf : Byte} {b b' : Block} {outs : List OutEvent}
    (h : encodeDirectory sf b = .ok (b', outs)) :
    b' = b ∧ ((∃ f, outs = [.txf f]) ∨ ∃ e, outs = [.err e]) := by
  unfold encodeDirectory at h
  split at h
  · simp [raise, emit] at h; simp [← h.1, ← h.2]
  · split at h
    · simp [raise, emit] at h; simp [← h.1, ← h.2]
    · split at h
      · simp [emit] at h; simp [← h.1, ← h.2]
      · cases h

/-- `RX` emits nothing (R171). -/
theorem receiveByte_cases {v : Byte} {b b' : Block} {outs : List OutEvent}
    (h : receiveByte v b = .ok (b', outs)) : outs = [] ∧ receive v b = .ok b' := by
  unfold receiveByte at h
  split at h
  · simp only [quiet, Except.ok.injEq, Prod.mk.injEq] at h
    obtain ⟨rfl, rfl⟩ := h
    exact ⟨rfl, ‹_›⟩
  · cases h

/-- `RX_END` clears the parser and emits one record (R179). -/
theorem endBuffer_cases {b b' : Block} {outs : List OutEvent}
    (h : endBuffer b = .ok (b', outs)) : b' = b.clearParser ∧ ∃ r, outs = [.res r] := by
  unfold endBuffer at h
  split at h
  · simp [emit] at h; exact ⟨h.1.symm, _, h.2.symm⟩
  · cases h

/-- Delivering a buffer: the bytes are received, then the parser is cleared and one record emitted. -/
theorem deliverBuffer_cases {f : List Byte} {b b' : Block} {outs : List OutEvent}
    (h : deliverBuffer f b = .ok (b', outs)) :
    ∃ b1, receiveAll f b = .ok b1 ∧ b' = b1.clearParser ∧ ∃ r, outs = [.res r] := by
  unfold deliverBuffer at h
  split at h
  · exact ⟨_, ‹_›, endBuffer_cases h⟩
  · cases h

/-! ### Frames of `RX` -/

/-- What one `RX` leaves, and the entry of `DBUF` and the phase it writes (R171 to R178, R187). -/
theorem receive_frame {v : Byte} {b b' : Block} (h : receive v b = .ok b') :
    b'.acc = b.acc ∧ b'.ctrl = b.ctrl ∧ b'.nlen = b.nlen ∧ b'.nbuf = b.nbuf ∧
    (∀ a, b'.dbuf.read a ≠ b.dbuf.read a → b.phase = .data ∧ a = b.cnt.toNat) ∧
    b'.phase = nextPhase b v := by
  unfold receive at h
  split at h
  all_goals (try (injection h with h; subst h))
  all_goals rename_i hp
  · by_cases hpre : b.pre <;>
      simp [hpre, rxHunt, rxType, beginBuffer, nextPhase, hp, preambleByte]
    by_cases hv : v = 90#8 <;> simp [hv]
  · by_cases hv : v = 90#8 <;> simp [rxHunt, preambleByte, hv, nextPhase, hp]
  · by_cases hv : v = 90#8 <;> simp [rxPre2, preambleByte, hv, nextPhase, hp]
  · simp [rxType, nextPhase, hp]
  · simp [rxLen, nextPhase, hp]
  · unfold rxData at h
    split at h
    · cases h
    · rename_i b1 hw
      injection h with h
      subst h
      unfold Block.writeEntry at hw
      split at hw
      · injection hw with hw
        subst hw
        simp [Memory.read_write, Block.dataIndex, hp, nextPhase]
      · cases hw
  · simp [rxCks, nextPhase, hp]
  · simp [rxDone, nextPhase, hp]

/-- Receiving bytes leaves the registers of the other units (R20). -/
theorem receiveAll_frame {vs : List Byte} {b b' : Block} (h : receiveAll vs b = .ok b') :
    b'.acc = b.acc ∧ b'.ctrl = b.ctrl ∧ b'.nlen = b.nlen ∧ b'.nbuf = b.nbuf := by
  induction vs generalizing b with
  | nil => simp [receiveAll] at h; simp [h]
  | cons v vs ih =>
    simp only [receiveAll] at h
    split at h
    · rename_i b1 h1
      have := receive_frame h1
      have := ih h
      simp_all
    · cases h

/-- One `RX` keeps the canonical form of `DBUF`. -/
theorem receive_wf {v : Byte} {b b' : Block} (h : receive v b = .ok b')
    (hw : Memory.wf 255 b.dbuf) : Memory.wf 255 b'.dbuf := by
  unfold receive at h
  split at h
  all_goals (try (injection h with h; subst h))
  · split
    · unfold rxHunt; split <;> exact hw
    · exact hw
  · unfold rxHunt; split <;> exact hw
  · unfold rxPre2; split <;> exact hw
  · exact hw
  · exact hw
  · unfold rxData at h
    split at h
    · cases h
    · rename_i b1 hw1
      injection h with h
      subst h
      unfold Block.writeEntry at hw1
      split at hw1
      · rename_i hlt
        injection hw1 with hw1
        subst hw1
        exact Memory.write_wf v hw hlt
      · cases hw1
  · exact hw
  · exact hw

/-- Receiving bytes keeps the canonical form of `DBUF`. -/
theorem receiveAll_wf {vs : List Byte} {b b' : Block} (h : receiveAll vs b = .ok b')
    (hw : Memory.wf 255 b.dbuf) : Memory.wf 255 b'.dbuf := by
  induction vs generalizing b with
  | nil => simp [receiveAll] at h; subst h; exact hw
  | cons v vs ih =>
    rw [receiveAll] at h
    split at h
    · rename_i b1 h1
      exact ih h (receive_wf h1 hw)
    · cases h

/-- Receiving one list of bytes after another. -/
theorem receiveAll_append (as bs : List Byte) (b : Block) :
    receiveAll (as ++ bs) b =
      match receiveAll as b with
      | .ok b' => receiveAll bs b'
      | .error f => .error f := by
  induction as generalizing b with
  | nil => rfl
  | cons a as ih => simp only [List.cons_append, receiveAll]; cases receive a b <;> simp [ih]

/-! ### Every operation answers an effect, and keeps the invariant -/

/-- With `NLEN` at most 24 the filename is held, `NLEN` bytes long (R37, R38). -/
theorem Block.Inv.name_held {b : Block} (h : b.Inv) (hn : b.nlen.toNat ≤ 24) :
    ∃ name, b.nameHeld = some name ∧ name.length = b.nlen.toNat := by
  obtain ⟨name, hh⟩ := h.nameKept
  have := Memory.firstFrom_length hh
  exact ⟨name, hh, by omega⟩

/-- `ENC_DIR` answers one output, the same for every block with the same filename (R142). -/
theorem encodeDirectory_total {b : Block} (sf : Byte) (h : b.Inv) :
    ∃ o, ∀ b' : Block, b'.nlen = b.nlen → b'.nbuf = b.nbuf →
      encodeDirectory sf b' = emit o b' := by
  have hb := h.nlenBound
  by_cases hn : b.nlen.toNat = 25
  · exact ⟨_, fun b' h1 _ => encodeDirectory_overflow sf (by rw [h1]; exact hn)⟩
  · by_cases hs : sf.toNat > 4
    · exact ⟨_, fun b' h1 _ => encodeDirectory_badForm (by rw [h1]; omega) hs⟩
    · obtain ⟨name, hh, _⟩ := h.name_held (by omega)
      exact ⟨_, fun b' h1 h2 => encodeDirectory_of_nameHeld (by rw [h1]; omega) (by omega)
        (by rw [Block.nameHeld, h1, h2]; exact hh)⟩

/-- `RX_END` answers one record. -/
theorem endBuffer_total {b : Block} (h : b.Inv) :
    ∃ r, endBuffer b = emit (.res r) b.clearParser := by
  obtain ⟨d, hd, _⟩ := h.sumHeld
  exact ⟨_, endBuffer_of_dataHeld hd⟩

/-- Delivering a buffer answers one record. -/
theorem deliverBuffer_total {b : Block} (f : List Byte) (h : b.Inv) :
    ∃ b' r, receiveAll f b = .ok b' ∧ b'.Inv ∧
      deliverBuffer f b = emit (.res r) b'.clearParser := by
  obtain ⟨b', h1, h2⟩ := receiveAll_inv f h
  obtain ⟨r, hr⟩ := endBuffer_total h2
  exact ⟨b', r, h1, h2, by simp [deliverBuffer, h1, hr]⟩

end Sys2Proof.Machine
end

