-- ==== Sys2Proof/Laws/Parser.lean ====
section
/-! SUPPORT. The parser over the bytes of one buffer (spec/42_parser.md R182, R183): data bytes, a whole
frame from its type byte on, the hunt for the preamble, and a buffer from `IDLE` on. -/

namespace Sys2Proof.Machine

/-- Two blocks agree on everything `RX` leaves alone once the frame has begun. -/
def Block.agrees (b b' : Block) : Prop :=
  b'.code = b.code ∧ b'.got = b.got ∧ b'.pm = b.pm ∧ b'.skip = b.skip

/-- One data byte (R176). -/
theorem receive_data {b : Block} {d : List Byte} (v : Byte) (h : b.Inv) (hp : b.phase = .data)
    (hd : b.dataHeld = some d) :
    ∃ b', receive v b = .ok b' ∧ b'.Inv ∧ b.agrees b' ∧ b'.dataHeld = some (d ++ [v]) ∧
      b'.type = b.type ∧ b'.len = b.len ∧ b'.rck = b.rck ∧
      b'.phase = if d.length + 1 = b.len.toNat then .cks else .data := by
  have hb := h.inData hp
  have h3 := b.len.isLt
  have hlt : b.cnt.toNat < 255 := by omega
  have hdl : d.length = b.cnt.toNat := Memory.firstFrom_length hd
  have hc1 : (b.cnt + 1).toNat = b.cnt.toNat + 1 := by simp [BitVec.toNat_add]; omega
  have hr : receive v b = _ := (by simp only [receive, hp]; exact rxData_of_lt v hlt)
  obtain ⟨b2, h2, hi2⟩ := receive_inv v h
  rw [hr] at h2
  injection h2 with h2
  subst h2
  refine ⟨_, hr, hi2, ⟨rfl, rfl, rfl, rfl⟩, ?_, rfl, rfl, rfl, ?_⟩
  · have := Memory.firstFrom_write v hd
    simp only [Block.dataHeld, hc1]
    simpa using this
  · simp only [hp, hdl, ← hc1, BitVec.toNat_inj]

theorem Block.agrees_trans {a b c : Block} (h : a.agrees b) (k : b.agrees c) : a.agrees c := by
  unfold Block.agrees at *; simp_all

/-- Data bytes, no more than the length byte declares (R176). -/
theorem receiveAll_data (vs : List Byte) :
    ∀ {b : Block} {d : List Byte}, b.Inv → b.phase = .data → b.dataHeld = some d →
      d.length + vs.length ≤ b.len.toNat →
      ∃ b', receiveAll vs b = .ok b' ∧ b'.Inv ∧ b.agrees b' ∧ b'.dataHeld = some (d ++ vs) ∧
        b'.type = b.type ∧ b'.len = b.len ∧ b'.rck = b.rck ∧
        b'.phase = if d.length + vs.length = b.len.toNat then .cks else .data := by
  induction vs with
  | nil =>
    intro b d h hp hd hl
    have hb := h.inData hp
    have hdl : d.length = b.cnt.toNat := Memory.firstFrom_length hd
    refine ⟨b, rfl, h, ⟨rfl, rfl, rfl, rfl⟩, by simpa using hd, rfl, rfl, rfl, ?_⟩
    simp [hp]; omega
  | cons v vs ih =>
    intro b d h hp hd hl
    simp at hl
    obtain ⟨b1, h1, hi1, hs1, hd1, ht1, hl1, hk1, hp1⟩ := receive_data v h hp hd
    by_cases hc : d.length + 1 = b.len.toNat
    · have : vs = [] := List.eq_nil_of_length_eq_zero (by omega)
      subst this
      exact ⟨b1, by simp [receiveAll, h1], hi1, hs1, hd1, ht1, hl1, hk1, by simp [hp1]⟩
    · rw [if_neg hc] at hp1
      obtain ⟨b2, h2, hi2, hs2, hd2, ht2, hl2, hk2, hp2⟩ :=
        ih hi1 hp1 hd1 (by simp [hl1]; omega)
      refine ⟨b2, by simp [receiveAll, h1, h2], hi2, Block.agrees_trans hs1 hs2, by simpa using hd2,
        by simp [*], by simp [*], by simp [*], ?_⟩
      rw [hp2, hl1]
      simp only [List.length_append, List.length_cons, List.length_nil]
      rw [show d.length + (0 + 1) + vs.length = d.length + (vs.length + 1) by omega]

/-- Bytes after the checksum byte (R178). -/
theorem receiveAll_done (vs : List Byte) :
    ∀ {b : Block}, b.phase = .done →
      receiveAll vs b = .ok { b with trail := b.trail || !vs.isEmpty } := by
  induction vs with
  | nil => intro b _; simp [receiveAll]
  | cons v vs ih =>
    intro b hp
    simp [receiveAll, receive, hp, rxDone]
    rw [ih rfl]
    simp

/-- From the length byte on, the record is the frame's (R182 (b), (c)). -/
theorem receiveAll_len (rest : List Byte) {b : Block} (h : b.Inv) (hp : b.phase = .len)
    (hl : b.len = 0) (hk : b.rck = 0) :
    ∃ b' data, receiveAll rest b = .ok b' ∧ b'.Inv ∧ b'.dataHeld = some data ∧ b.agrees b' ∧
      b'.result data = frameResult b.classification b.pm b.skip (b.type :: rest) := by
  have hA := h.atLength hp
  have hf := h.flags_of_not_done (by simp [hp])
  cases rest with
  | nil =>
    refine ⟨b, [], rfl, h, by simp [Block.dataHeld, hA, Memory.firstFrom],
      ⟨rfl, rfl, rfl, rfl⟩, ?_⟩
    simp [Block.result, frameResult, Block.parseStatus, hp, Block.bufferMode, hl, hA, hk, hf,
      Block.xck, checksum]
  | cons n body =>
    have hr : receive n b = .ok (rxLen n b) := by simp [receive, hp]
    have hi1 := rxLen_inv n h hp
    have key : ∃ b2, receiveAll (body.take n.toNat) (rxLen n b) = .ok b2 ∧ b2.Inv ∧
        b.agrees b2 ∧ b2.dataHeld = some (body.take n.toNat) ∧ b2.type = b.type ∧ b2.len = n ∧
        b2.rck = 0 ∧ b2.phase = if body.length < n.toNat then .data else .cks := by
      by_cases hn : n = 0
      · subst hn
        exact ⟨rxLen 0 b, by simp [receiveAll], hi1, ⟨rfl, rfl, rfl, rfl⟩,
          by simp [Block.dataHeld, Memory.firstFrom], rfl, rfl, hk, by simp⟩
      · have hp1 : (rxLen n b).phase = .data := by rw [rxLen_phase, if_neg hn]
        obtain ⟨b2, h2, hi2, hs2, hd2, ht2, hl2, hk2, hp2⟩ :=
          receiveAll_data (body.take n.toNat) (b := rxLen n b) (d := []) hi1 hp1
            (by simp [Block.dataHeld, Memory.firstFrom]) (by simp <;> omega)
        refine ⟨b2, h2, hi2, Block.agrees_trans (b := rxLen n b) ⟨rfl, rfl, rfl, rfl⟩ hs2,
          by simpa using hd2, by simp [ht2], by simp [hl2], by simp [hk2, hk], ?_⟩
        rw [hp2]
        simp only [List.length_nil, List.length_take, rxLen_len]
        by_cases hb : body.length < n.toNat
        · rw [if_neg (by omega), if_pos hb]
        · rw [if_pos (by omega), if_neg hb]
    obtain ⟨b2, h2, hi2, hs2, hd2, ht2, hl2, hk2, hp2⟩ := key
    obtain ⟨hsc, hsg, hsp, hss⟩ := id hs2
    have hcls : b2.classification = b.classification := by simp [Block.classification, hsc, hsg]
    obtain ⟨dd, hdd, hsum⟩ := hi2.sumHeld
    have hdd' : dd = body.take n.toNat := by rw [hd2] at hdd; simpa using hdd.symm
    subst hdd'
    have hpac : b2.pacc.toNat = b.type.toNat + n.toNat + byteSum (body.take n.toNat) := by
      rw [hsum (by rw [hp2]; split <;> simp), ht2, hl2]
    have hxck : b2.xck = checksum (b.type :: n :: body.take n.toNat) := by
      simp [Block.xck, checksum, hpac, Nat.add_assoc]
    have hcnt : b2.cnt.toNat = (body.take n.toNat).length := (Memory.firstFrom_length hd2).symm
    have hnd : b2.phase ≠ .done := by rw [hp2]; split <;> simp
    have hf2 := hi2.flags_of_not_done hnd
    cases hdrop : body.drop n.toNat with
    | nil =>
      have hle : body.length ≤ n.toNat := by simpa using hdrop
      have htake : body.take n.toNat = body := List.take_of_length_le hle
      refine ⟨b2, body, ?_, hi2, by rw [hd2, htake], hs2, ?_⟩
      · rw [htake] at h2; simp [receiveAll, hr, h2]
      · have hc : b2.cnt = BitVec.ofNat 8 body.length := by
          apply BitVec.eq_of_toNat_eq
          rw [hcnt, htake]
          have := n.isLt
          simp; omega
        rw [htake] at hxck
        simp only [Block.result, frameResult, hdrop, hcls, hc, hl2, ht2, hk2, hxck, hss, hf2]
        have h1 : b2.parseStatus = .truncated := by
          unfold Block.parseStatus
          rw [hp2]
          by_cases hb : body.length < n.toNat <;> simp [hb]
        have h2 : b2.bufferMode = b.pm := by
          unfold Block.bufferMode
          rw [hp2, hsp]
          by_cases hb : body.length < n.toNat <;> simp [hb]
        rw [h1, h2, hp2]
    | cons c after =>
      have hge : n.toNat < body.length := by
        have := congrArg List.length hdrop
        simp at this; omega
      have hp3 : b2.phase = .cks := by rw [hp2, if_neg (by omega)]
      have hb : body = body.take n.toNat ++ c :: after := by rw [← hdrop, List.take_append_drop]
      have hrun : receiveAll (n :: body) b =
          .ok { rxCks c b2 with trail := (rxCks c b2).trail || !after.isEmpty } := by
        rw [receiveAll, hr]
        simp only
        conv => lhs; rw [hb]
        rw [receiveAll_append, h2]
        simp only [receiveAll, receive, hp3]
        rw [receiveAll_done after rfl]
      obtain ⟨b4, h4, hi4⟩ := receiveAll_inv (n :: body) h
      rw [hrun] at h4
      injection h4 with h4
      subst h4
      refine ⟨_, body.take n.toNat, hrun, hi4, hd2, hs2, ?_⟩
      have hc : b2.cnt = n := by
        apply BitVec.eq_of_toNat_eq
        rw [hcnt]
        simp; omega
      have hcl : Block.classification { rxCks c b2 with
          trail := (rxCks c b2).trail || !after.isEmpty } = b.classification := hcls
      have hxc : Block.xck { rxCks c b2 with
          trail := (rxCks c b2).trail || !after.isEmpty } = b2.xck := rfl
      simp only [frameResult, hdrop, Block.result, hcl, hxc, hxck]
      simp [Block.parseStatus, Block.bufferMode, hsp, ht2, hl2, hc, hss, hf2, Block.checksumOk, hxck]

/-- From the type byte of a format-F frame on, the record is the frame's (R183 (b)). -/
theorem receiveAll_type (rest : List Byte) {b : Block} (h : b.Inv) (hp : b.phase = .type) :
    ∃ b' data, receiveAll rest b = .ok b' ∧ b'.Inv ∧ b'.dataHeld = some data ∧ b.agrees b' ∧
      b'.result data = frameResult b.classification b.pm b.skip rest := by
  have hA := h.beforeType (by simp [hp])
  have hf := h.flags_of_not_done (by simp [hp])
  cases rest with
  | nil =>
    refine ⟨b, [], rfl, h, by simp [Block.dataHeld, hA, Memory.firstFrom],
      ⟨rfl, rfl, rfl, rfl⟩, ?_⟩
    simp [Block.result, frameResult, Block.parseStatus, hp, Block.bufferMode, hA, hf, Block.xck]
    decide
  | cons t rest =>
    have hr : receive t b = .ok (rxType t b) := by simp [receive, hp]
    obtain ⟨b', data, h1, h2, h3, h4, h5⟩ :=
      receiveAll_len rest (rxType_inv t h hp) rfl (by simp [hA]) (by simp [hA])
    exact ⟨b', data, by simp [receiveAll, hr, h1], h2, h3,
      Block.agrees_trans (b := rxType t b) ⟨rfl, rfl, rfl, rfl⟩ h4, by rw [h5]; rfl⟩

/-! ### The hunt for the preamble -/

/-- The phase a hunt ends in that found no preamble (R172, R173). -/
def huntPhase (vs : List Byte) : Phase :=
  match vs.getLast? with
  | none => .hunt
  | some v => if v = 0x5A then .pre2 else .hunt

/-- The record of a hunt over the bytes still to come (R183). -/
def huntResult (cls : Classification) (pm skip : Bool) (vs : List Byte) : Res :=
  match findPreamble vs with
  | none => noFrameResult cls pm (huntPhase vs) (skip || vs.any (· ≠ 0x5A))
  | some (i, f) => frameResult cls pm (skip || decide (i > 0)) f

theorem findPreamble_cons {v : Byte} (h : v ≠ 90#8) (vs : List Byte) :
    findPreamble (v :: vs) = (findPreamble vs).map (fun p => (p.1 + 1, p.2)) := by
  cases vs with
  | nil => rfl
  | cons w ws => simp [findPreamble, h]

theorem findPreamble_lone {v : Byte} (h : v ≠ 90#8) (vs : List Byte) :
    findPreamble (90#8 :: v :: vs) =
      (findPreamble (v :: vs)).map (fun p => (p.1 + 1, p.2)) := by
  simp only [findPreamble]; simp [h]

theorem huntPhase_cons {v : Byte} (h : v ≠ 90#8) (vs : List Byte) :
    huntPhase (v :: vs) = huntPhase vs := by
  cases vs with
  | nil => simp [huntPhase, h]
  | cons w ws => simp [huntPhase, List.getLast?_cons_cons]

theorem huntPhase_cons_cons (v w : Byte) (vs : List Byte) :
    huntPhase (v :: w :: vs) = huntPhase (w :: vs) := by
  simp [huntPhase, List.getLast?_cons_cons]

/-- A byte that is no preamble byte is skipped (R172). -/
theorem huntResult_skip {v : Byte} (h : v ≠ 90#8) (cls : Classification) (pm skip : Bool)
    (vs : List Byte) : huntResult cls pm skip (v :: vs) = huntResult cls pm true vs := by
  unfold huntResult
  rw [findPreamble_cons h]
  cases findPreamble vs with
  | none => simp [huntPhase_cons h, h]
  | some p => simp

/-- A lone preamble byte is skipped with the byte after it (R173). -/
theorem huntResult_lone {v : Byte} (h : v ≠ 90#8) (cls : Classification) (pm skip : Bool)
    (vs : List Byte) :
    huntResult cls pm skip (90#8 :: v :: vs) = huntResult cls pm true vs := by
  unfold huntResult
  rw [findPreamble_lone h, findPreamble_cons h]
  cases findPreamble vs with
  | none => simp [huntPhase_cons_cons, huntPhase_cons h, h]
  | some p => simp

/-- A hunt over bytes, one preamble byte seen before them or none. -/
theorem receiveAll_hunt (vs : List Byte) :
    ∀ {b : Block}, b.Inv → b.phase = .hunt ∨ b.phase = .pre2 →
      ∃ b' data, receiveAll vs b = .ok b' ∧ b'.Inv ∧ b'.dataHeld = some data ∧
        b'.code = b.code ∧ b'.got = b.got ∧
        b'.result data = huntResult b.classification b.pm b.skip
          (if b.phase = .pre2 then 90#8 :: vs else vs) := by
  induction vs with
  | nil =>
    intro b h hp
    have hA := h.beforeType (by rcases hp with hp | hp <;> simp [hp])
    have hf := h.flags_of_not_done (by rcases hp with hp | hp <;> simp [hp])
    refine ⟨b, [], rfl, h, by simp [Block.dataHeld, hA, Memory.firstFrom], rfl, rfl, ?_⟩
    rcases hp with hp | hp <;>
      simp [huntResult, findPreamble, huntPhase, noFrameResult, Block.result, Block.parseStatus,
        hp, Block.bufferMode, hA, hf, Block.xck] <;>
      decide
  | cons v vs ih =>
    intro b h hp
    obtain ⟨b1, hr, hi1⟩ := receive_inv v h
    have step : receiveAll (v :: vs) b = receiveAll vs b1 := by rw [receiveAll, hr]
    rw [step]
    rcases hp with hp | hp
    · by_cases hv : v = 90#8
      · subst hv
        have hb1 : b1 = { b with phase := .pre2 } := by
          rw [receive, hp] at hr
          injection hr with hr
          exact hr.symm
        subst hb1
        obtain ⟨b', data, h1, h2, h3, h4, h5, h6⟩ := ih hi1 (by simp)
        exact ⟨b', data, h1, h2, h3, h4, h5, by rw [h6]; simp [hp]; rfl⟩
      · have hb1 : b1 = { b with phase := .hunt, skip := true } := by
          rw [receive, hp] at hr
          injection hr with hr
          rw [← hr]
          exact if_neg hv
        subst hb1
        obtain ⟨b', data, h1, h2, h3, h4, h5, h6⟩ := ih hi1 (by simp)
        exact ⟨b', data, h1, h2, h3, h4, h5, by rw [h6]; simp [hp, huntResult_skip hv]; rfl⟩
    · by_cases hv : v = 90#8
      · subst hv
        have hb1 : b1 = { b with phase := .type } := by
          rw [receive, hp] at hr
          injection hr with hr
          exact hr.symm
        subst hb1
        obtain ⟨b', data, h1, h2, h3, h4, h5⟩ := receiveAll_type vs hi1 (by simp)
        exact ⟨b', data, h1, h2, h3, h4.1, h4.2.1,
          by rw [h5]; simp [hp, huntResult, findPreamble]; rfl⟩
      · have hb1 : b1 = { b with phase := .hunt, skip := true } := by
          rw [receive, hp] at hr
          injection hr with hr
          rw [← hr]
          exact if_neg hv
        subst hb1
        obtain ⟨b', data, h1, h2, h3, h4, h5, h6⟩ := ih hi1 (by simp)
        exact ⟨b', data, h1, h2, h3, h4, h5,
          by rw [h6]; simp [hp]; rw [huntResult_lone hv]; rfl⟩

/-! ### A whole buffer -/

theorem Block.classification_of {b : Block} {v : Byte} (hg : b.got = true) (hc : b.code = v)
    (vs : List Byte) : b.classification = classify (v :: vs) := by
  simp [Block.classification, classify, hg, hc]

/-- The hunt over a whole buffer gives the format-F record. -/
theorem formatFResult_eq_huntResult (v : Byte) (vs : List Byte) :
    formatFResult (v :: vs) = huntResult (classify (v :: vs)) true false (v :: vs) := by
  simp only [huntResult, formatFResult]
  cases findPreamble (v :: vs) with
  | some p => simp
  | none =>
    simp [phaseWithoutPreamble, huntPhase]
    cases hgl : (v :: vs).getLast? <;> simp_all

/-- Receiving a buffer from `IDLE` (R182, R183): its record, byte 0 in `CODE`. -/
theorem receiveAll_buffer (buffer : List Byte) {b : Block} (h : b.Inv) (hp : b.phase = .idle) :
    ∃ b' data, receiveAll buffer b = .ok b' ∧ b'.Inv ∧ b'.dataHeld = some data ∧
      (∀ v rest, buffer = v :: rest → b'.code = v ∧ b'.got = true) ∧
      b'.result data = bufferResult b.pre buffer := by
  have hA := h.idleClear hp
  have hg := h.gotIffBusy.mp hp
  cases buffer with
  | nil =>
    refine ⟨b, [], rfl, h, by simp [Block.dataHeld, hA, Memory.firstFrom], by simp, ?_⟩
    cases hpre : b.pre <;>
      simp [bufferResult, rspResult, formatFResult, findPreamble, phaseWithoutPreamble,
        noFrameResult, Block.result, Block.parseStatus, hp, Block.bufferMode, hA, Block.xck, hpre,
        Block.classification, hg, classify] <;>
      decide
  | cons v vs =>
    obtain ⟨b1, hr, hi1⟩ := receive_inv v h
    have step : receiveAll (v :: vs) b = receiveAll vs b1 := by rw [receiveAll, hr]
    rw [step]
    cases hpre : b.pre with
    | false =>
      have hb1 : b1 = rxType v (beginBuffer v b) := by
        rw [receive, hp] at hr
        injection hr with hr
        rw [← hr, if_neg (by simp [hpre])]
      subst hb1
      obtain ⟨b', data, h1, h2, h3, h4, h5⟩ :=
        receiveAll_len vs hi1 rfl (by simp [beginBuffer, hA]) (by simp [beginBuffer, hA])
      refine ⟨b', data, h1, h2, h3, ?_, ?_⟩
      · rintro v' rest ⟨rfl, rfl⟩
        exact ⟨h4.1, h4.2.1⟩
      · rw [h5, Block.classification_of (b := rxType v (beginBuffer v b)) (v := v) rfl rfl vs]
        simp [bufferResult, rspResult, beginBuffer, hpre, hA]
    | true =>
      by_cases hv : v = 90#8
      · have hb1 : b1 = { beginBuffer v b with phase := .pre2 } := by
          rw [receive, hp] at hr
          injection hr with hr
          rw [← hr, if_pos hpre]
          exact if_pos hv
        subst hb1
        obtain ⟨b', data, h1, h2, h3, h4, h5, h6⟩ := receiveAll_hunt vs hi1 (by simp)
        refine ⟨b', data, h1, h2, h3, ?_, ?_⟩
        · rintro v' rest ⟨rfl, rfl⟩
          exact ⟨h4, h5⟩
        · rw [h6, Block.classification_of (b := { beginBuffer v b with phase := .pre2 }) (v := v)
            rfl rfl vs]
          subst hv
          simp only [bufferResult, if_true, formatFResult_eq_huntResult]
          simp [beginBuffer, hpre, hA]
      · have hb1 : b1 = { beginBuffer v b with phase := .hunt, skip := true } := by
          rw [receive, hp] at hr
          injection hr with hr
          rw [← hr, if_pos hpre]
          exact if_neg hv
        subst hb1
        obtain ⟨b', data, h1, h2, h3, h4, h5, h6⟩ := receiveAll_hunt vs hi1 (by simp)
        refine ⟨b', data, h1, h2, h3, ?_, ?_⟩
        · rintro v' rest ⟨rfl, rfl⟩
          exact ⟨h4, h5⟩
        · rw [h6, Block.classification_of
            (b := { beginBuffer v b with phase := .hunt, skip := true }) (v := v) rfl rfl vs]
          simp only [bufferResult, if_true, formatFResult_eq_huntResult]
          rw [huntResult_skip hv]
          simp [beginBuffer, hpre]

end Sys2Proof.Machine
end

