-- ==== Sys2Proof/Laws/PerInstr.lean ====
section
/-! SUPPORT. One lemma per instruction: its encoding has the width spec/opcode_table.json gives its row
(spec/30_encoding.md R101), and an operation has none (R100). -/

namespace Sys2Proof.Laws.EncodedWidth

/-- `width_bytes` of the row (R101); none for an operation (R100). -/
def widthBytes (i : Instr) : Option Nat :=
  match i with
  | .driveStatus | .driveCondition | .close | .format | .erase => some 5
  | .driveStatusCr | .formatCr => some 6
  | .dirRef | .dirFirst | .dirNext | .dirPrev | .dirEnd => some 31
  | .rspReadFileMore len _ _ | .rspDirectoryMore len _ _ | .rspGeneric12 len _ _
  | .rspDriveCondition len _ _ => some (3 + len.toNat)
  | .rst | .setPre _ | .rd _ | .csClr | .csPut _ | .nmClr | .nmPut _ | .encSimple _ _
  | .encDir _ | .rx _ | .rxEnd => none

/-- A well-formed instruction encodes, with a filename of at most 24 bytes, to as many bytes as its row
is wide. -/
def Statement (i : Instr) : Prop :=
  ∀ name : List Byte, i.wellFormed = true → name.length ≤ 24 →
    (encode i name).map List.length = widthBytes i

/-- A directory frame is 31 bytes (R88). -/
theorem encodeDir_width (sf : Byte) {name : List Byte} (h : name.length ≤ 24) :
    (encodeDir sf name).map List.length = some 31 := by
  simp [encodeDir, h, padName_length h]

/-- A response frame is `3 + n` bytes (R92). -/
theorem encodeRsp_width (code cks : Byte) {len : Byte} {data : List Byte}
    (h : lengthAgrees len data = true) : (encodeRsp code len data cks).length = 3 + len.toNat := by
  have hl : data.length = len.toNat := by simpa [lengthAgrees] using h
  simp [encodeRsp, hl]; omega

theorem rst : Statement .rst := fun _ _ _ => rfl
theorem setPre (v : Bool) : Statement (.setPre v) := fun _ _ _ => rfl
theorem rd (r : Reg) : Statement (.rd r) := fun _ _ _ => rfl
theorem csClr : Statement .csClr := fun _ _ _ => rfl
theorem csPut (v : Byte) : Statement (.csPut v) := fun _ _ _ => rfl
theorem nmClr : Statement .nmClr := fun _ _ _ => rfl
theorem nmPut (v : Byte) : Statement (.nmPut v) := fun _ _ _ => rfl
theorem encSimple (t : Byte) (trail : Bool) : Statement (.encSimple t trail) := fun _ _ _ => rfl
theorem encDir (sf : Byte) : Statement (.encDir sf) := fun _ _ _ => rfl
theorem rx (v : Byte) : Statement (.rx v) := fun _ _ _ => rfl
theorem rxEnd : Statement .rxEnd := fun _ _ _ => rfl
theorem driveStatus : Statement .driveStatus := fun _ _ _ => rfl
theorem driveStatusCr : Statement .driveStatusCr := fun _ _ _ => rfl
theorem driveCondition : Statement .driveCondition := fun _ _ _ => rfl
theorem close : Statement .close := fun _ _ _ => rfl
theorem format : Statement .format := fun _ _ _ => rfl
theorem formatCr : Statement .formatCr := fun _ _ _ => rfl
theorem erase : Statement .erase := fun _ _ _ => rfl
theorem dirRef : Statement .dirRef := fun _ _ h => encodeDir_width _ h
theorem dirFirst : Statement .dirFirst := fun _ _ h => encodeDir_width _ h
theorem dirNext : Statement .dirNext := fun _ _ h => encodeDir_width _ h
theorem dirPrev : Statement .dirPrev := fun _ _ h => encodeDir_width _ h
theorem dirEnd : Statement .dirEnd := fun _ _ h => encodeDir_width _ h
theorem rspReadFileMore (len : Byte) (data : List Byte) (cks : Byte) :
    Statement (.rspReadFileMore len data cks) :=
  fun _ hw _ => congrArg some (encodeRsp_width _ cks hw)
theorem rspDirectoryMore (len : Byte) (data : List Byte) (cks : Byte) :
    Statement (.rspDirectoryMore len data cks) :=
  fun _ hw _ => congrArg some (encodeRsp_width _ cks hw)
theorem rspGeneric12 (len : Byte) (data : List Byte) (cks : Byte) :
    Statement (.rspGeneric12 len data cks) :=
  fun _ hw _ => congrArg some (encodeRsp_width _ cks hw)
theorem rspDriveCondition (len : Byte) (data : List Byte) (cks : Byte) :
    Statement (.rspDriveCondition len data cks) :=
  fun _ hw _ => congrArg some (encodeRsp_width _ cks hw)

end Sys2Proof.Laws.EncodedWidth
end

