-- ==== Sys2Proof/Laws/Trace.lean ====
section
/-! SUPPORT. Traces of operations (spec/20_memory.md R69): each operation completes and keeps the
invariant, and what delivering a buffer does. -/

namespace Sys2Proof.Machine

/-- Every operation of the block answers an effect that keeps R44. -/
theorem blockOp_inv (i : Instr) {b : Block} (h : b.Inv) :
    ∃ b' outs, blockOp i b = .ok (b', outs) ∧ b'.Inv := by
  have dir : ∀ sf, ∃ b' outs, encodeDirectory sf b = .ok (b', outs) ∧ b'.Inv := fun sf => by
    obtain ⟨o, ho⟩ := encodeDirectory_total sf h
    exact ⟨b, [o], ho b rfl rfl, h⟩
  have rsp : ∀ f, ∃ b' outs, deliverBuffer f b = .ok (b', outs) ∧ b'.Inv := fun f => by
    obtain ⟨b', r, _, h2, h3⟩ := deliverBuffer_total f h
    exact ⟨_, _, h3, Block.clearParser_inv h2⟩
  cases i with
  | rst => exact ⟨_, _, rfl, Block.resetWith_inv h.dbufWf h.nbufWf⟩
  | setPre v => exact ⟨_, _, rfl, h.withPre v⟩
  | csClr => exact ⟨_, _, rfl, h.withAcc _⟩
  | csPut v => exact ⟨_, _, rfl, h.withAcc _⟩
  | nmClr =>
    exact ⟨_, _, rfl, h.withName (n := 0) (m := b.nbuf) (name := []) (by decide) h.nbufWf rfl⟩
  | nmPut v =>
    obtain ⟨b', h1, h2⟩ := nmPut_inv v h
    exact ⟨_, _, h1, h2⟩
  | rx v =>
    obtain ⟨b', h1, h2⟩ := receive_inv v h
    exact ⟨b', [], by simp [blockOp, receiveByte, h1, quiet], h2⟩
  | rxEnd =>
    obtain ⟨r, h1⟩ := endBuffer_total h
    exact ⟨_, _, h1, Block.clearParser_inv h⟩
  | rd _ | encSimple _ _ | driveStatus | driveStatusCr | driveCondition | close | format
  | formatCr | erase => exact ⟨_, _, rfl, h⟩
  | encDir _ | dirRef | dirFirst | dirNext | dirPrev | dirEnd => exact dir _
  | rspReadFileMore _ _ _ | rspDirectoryMore _ _ _ | rspGeneric12 _ _ _
  | rspDriveCondition _ _ _ => exact rsp _

/-- From a machine that meets the invariant every operation answers a next state that meets it. -/
theorem exec_of_inv (i : Instr) {s : State} (h : s.Inv) :
    ∃ b outs, blockOp i s.block = .ok (b, outs) ∧ exec i s = .next (s.commit b outs) ∧
      (s.commit b outs).Inv := by
  obtain ⟨b, outs, h1, h2⟩ := blockOp_inv i h.2
  refine ⟨b, outs, h1, ?_, h.1, h2⟩
  rw [exec_eq_perform_of_launched i h.1]
  exact State.perform_ok h.1 h1

/-- An operation reads nothing of the machine but the block and whether it has been reset. -/
theorem exec_transport {i : Instr} {s t : State} (h : exec i s = .next t) :
    ∃ outs, t.output = s.output ++ outs ∧ t.input = s.input ∧ t.history = s.history ∧
      ∀ s' : State, s'.block = s.block → s'.launched = s.launched →
        exec i s' = .next { s' with
          block := t.block, launched := t.launched, output := s'.output ++ outs } := by
  rcases exec_eq_next h with ⟨rfl, rfl⟩ | ⟨hi, hl, b, outs, hb, rfl⟩
  · refine ⟨[], by simp, rfl, rfl, fun s' h1 _ => ?_⟩
    simp [exec, execRst, h1]
  · refine ⟨outs, rfl, rfl, rfl, fun s' h1 h2 => ?_⟩
    rw [exec_eq_perform hi, State.perform_ok (by rw [h2]; exact hl) (by rw [h1]; exact hb)]
    simp [State.commit, h2]

/-- One trace after another. -/
theorem runTrace_append (is js : List Instr) (s : State) :
    runTrace (is ++ js) s =
      match runTrace is s with
      | .next t => runTrace js t
      | .fault f => .fault f
      | .refused r => .refused r := by
  induction is generalizing s with
  | nil => rfl
  | cons i is ih => simp only [List.cons_append, runTrace]; cases exec i s <;> simp [ih]

/-- Every trace completes from a machine that meets the invariant, and keeps it. -/
theorem runTrace_of_inv (ops : List Instr) {s : State} (h : s.Inv) :
    ∃ t, runTrace ops s = .next t ∧ t.Inv := by
  induction ops generalizing s with
  | nil => exact ⟨s, rfl, h⟩
  | cons i is ih =>
    obtain ⟨b, outs, _, h2, h3⟩ := exec_of_inv i h
    obtain ⟨t, h4, h5⟩ := ih h3
    exact ⟨t, by simp [runTrace, h2, h4], h5⟩

/-- `RX` of each byte of a list. -/
theorem runTrace_rx (vs : List Byte) :
    ∀ {s : State} {b : Block}, s.launched = true → receiveAll vs s.block = .ok b →
      runTrace (vs.map .rx) s = .next { s with block := b } := by
  induction vs with
  | nil => intro s b _ h; simp [receiveAll] at h; subst h; rfl
  | cons v vs ih =>
    intro s b hl h
    rw [receiveAll] at h
    split at h
    · rename_i b1 h1
      have e : exec (.rx v) s = .next { s with block := b1 } :=
        State.perform_quiet hl (by simp [receiveByte, h1])
      simp only [List.map_cons, runTrace, e]
      exact ih hl h
    · cases h

/-- A buffer delivered from `IDLE`: its record, and the parser cleared. -/
theorem runTrace_delivery (buffer : List Byte) {s : State} (h : s.Inv)
    (hp : s.block.phase = .idle) :
    ∃ b, receiveAll buffer s.block = .ok b ∧ b.Inv ∧
      runTrace (delivery buffer) s = .next { s with
        block := b.clearParser
        output := s.output ++ [.res (bufferResult s.block.pre buffer)] } := by
  obtain ⟨b, data, h1, h2, h3, _, h5⟩ := receiveAll_buffer buffer h.2 hp
  refine ⟨b, h1, h2, ?_⟩
  rw [delivery, runTrace_append, runTrace_rx buffer h.1 h1]
  simp only [runTrace]
  have e : exec .rxEnd { s with block := b } = .next { s with
      block := b.clearParser, output := s.output ++ [.res (b.result data)] } :=
    State.perform_emit h.1 (endBuffer_of_dataHeld h3)
  rw [e, h5]

end Sys2Proof.Machine
end

