-- ==== Sys2Proof/Laws/Units.lean ====
section
/-! SUPPORT. What an operation of each class reads and writes (spec/20_memory.md R70): the checksum port
`ACC` only, the encoder `NLEN` and `NBUF` only, the parser everything else. -/

namespace Sys2Proof.Machine

/-- The block with the registers of the other two units replaced (R20). -/
def Block.withOthers (b : Block) (acc : AccWord) (nlen : NlenWord) (nbuf : Memory) : Block :=
  { b with acc := acc, nlen := nlen, nbuf := nbuf }

/-- `RX` neither reads nor writes the other units. -/
theorem receive_withOthers {v : Byte} {b b' : Block} (acc : AccWord) (nlen : NlenWord)
    (nbuf : Memory) (h : receive v b = .ok b') :
    receive v (b.withOthers acc nlen nbuf) = .ok (b'.withOthers acc nlen nbuf) := by
  cases hph : b.phase
  case idle =>
    have hph' : (b.withOthers acc nlen nbuf).phase = .idle := hph
    have hpre' : (b.withOthers acc nlen nbuf).pre = b.pre := rfl
    rw [receive, hph] at h
    rw [receive, hph', hpre']
    injection h with h
    subst h
    cases hpre : b.pre
    · simp only [Bool.false_eq_true, if_false]
      simp [beginBuffer, Block.withOthers, rxType]
      exact hpre'
    · simp only [if_true, rxHunt]
      split <;> (simp [beginBuffer, Block.withOthers]; exact hpre')
  all_goals
    rw [receive, hph] at h
    simp only [receive, Block.withOthers, hph]
  · injection h with h; subst h; unfold rxHunt; split <;> simp
  · injection h with h; subst h; unfold rxPre2; split <;> simp
  · injection h with h; subst h; simp [rxType]
  · injection h with h; subst h; simp [rxLen]
  · simp [rxData, Block.writeEntry, Block.dataIndex, Block.mem, Block.withMem] at h ⊢
    by_cases hh : b.cnt.toNat < bufferSize .dbuf
    · simp [hh] at h ⊢; subst h; simp [hph]
    · simp [hh] at h
  · injection h with h; subst h; rfl
  · injection h with h; subst h; simp [rxDone, hph]

/-- Receiving bytes neither reads nor writes the other units. -/
theorem receiveAll_withOthers (vs : List Byte) :
    ∀ {b b' : Block} (acc : AccWord) (nlen : NlenWord) (nbuf : Memory),
      receiveAll vs b = .ok b' →
      receiveAll vs (b.withOthers acc nlen nbuf) = .ok (b'.withOthers acc nlen nbuf) := by
  induction vs with
  | nil => intro b b' acc nlen nbuf h; simp [receiveAll] at h ⊢; subst h; rfl
  | cons v vs ih =>
    intro b b' acc nlen nbuf h
    rw [receiveAll] at h
    split at h
    · rename_i b1 h1
      rw [receiveAll, receive_withOthers acc nlen nbuf h1]
      exact ih acc nlen nbuf h
    · cases h

/-- `RX_END` neither reads nor writes the other units. -/
theorem endBuffer_withOthers {b : Block} (h : b.Inv) :
    ∃ r, ∀ acc nlen nbuf, endBuffer (b.withOthers acc nlen nbuf) =
      emit (.res r) (b.clearParser.withOthers acc nlen nbuf) := by
  obtain ⟨d, hd, _⟩ := h.sumHeld
  exact ⟨b.result d, fun acc nlen nbuf =>
    endBuffer_of_dataHeld (b := b.withOthers acc nlen nbuf) hd⟩

/-- An operation of the checksum port depends on `ACC` and writes `ACC`. -/
theorem blockOp_cs {i : Instr} (b : Block) (h : opClass i = some .cs) :
    ∃ acc outs, ∀ b' : Block, b'.acc = b.acc →
      blockOp i b' = .ok ({ b' with acc := acc }, outs) := by
  cases i <;> simp [opClass] at h
  case rd r =>
    cases r <;> simp at h
    exact ⟨b.acc, [.rdval b.csum], fun b' hb => by
      simp [blockOp, readRegister, emit, Block.readReg, Block.csum, hb]; rw [← hb]⟩
  case csClr => exact ⟨_, _, fun b' _ => rfl⟩
  case csPut v =>
    exact ⟨b.acc + v.zeroExtend 32, [], fun b' hb => by simp [blockOp, csPut, quiet, hb]⟩

/-- An operation of the encoder depends on the filename and writes the filename. -/
theorem blockOp_en {i : Instr} {b : Block} (hb : b.Inv) (h : opClass i = some .en) :
    ∃ nlen nbuf outs, ∀ b' : Block, b'.nlen = b.nlen → b'.nbuf = b.nbuf →
      blockOp i b' = .ok ({ b' with nlen := nlen, nbuf := nbuf }, outs) := by
  have simple : ∀ t x, ∃ nlen nbuf outs, ∀ b' : Block, b'.nlen = b.nlen → b'.nbuf = b.nbuf →
      encodeSimple t x b' = .ok ({ b' with nlen := nlen, nbuf := nbuf }, outs) :=
    fun t x => ⟨b.nlen, b.nbuf, [.txf (simpleBytes t x)], fun b' h1 h2 => by
      simp [encodeSimple, emit, ← h1, ← h2]⟩
  have dir : ∀ sf, ∃ nlen nbuf outs, ∀ b' : Block, b'.nlen = b.nlen → b'.nbuf = b.nbuf →
      encodeDirectory sf b' = .ok ({ b' with nlen := nlen, nbuf := nbuf }, outs) := fun sf => by
    obtain ⟨o, ho⟩ := encodeDirectory_total sf hb
    refine ⟨b.nlen, b.nbuf, [o], fun b' h1 h2 => ?_⟩
    rw [ho b' h1 h2]
    simp [emit, ← h1, ← h2]
  cases i <;> simp [opClass] at h
  case rd r =>
    cases r <;> simp at h
    exact ⟨b.nlen, b.nbuf, [.rdval (b.nlen.zeroExtend 8)], fun b' h1 h2 => by
      simp [blockOp, readRegister, emit, Block.readReg, h1]; rw [← h1, ← h2]⟩
  case nmClr => exact ⟨0, b.nbuf, [], fun b' _ h2 => by simp [blockOp, nmClr, quiet, ← h2]⟩
  case nmPut v =>
    by_cases hlt : b.nlen.toNat < 24
    · exact ⟨b.nlen + 1, b.nbuf.write b.nlen.toNat v, [], fun b' h1 h2 => by
        rw [blockOp, nmPut_of_lt v (by rw [h1]; exact hlt), h1, h2]; rfl⟩
    · exact ⟨25, b.nbuf, [], fun b' h1 h2 => by
        rw [blockOp, nmPut_of_ge v (by rw [h1]; omega), ← h2]; rfl⟩
  all_goals first
    | exact simple _ _
    | exact dir _

/-- An operation of the parser neither reads nor writes the other units. -/
theorem blockOp_rxp {i : Instr} {b : Block} (hb : b.Inv) (h : opClass i = some .rxp) :
    ∃ (b1 : Block) (outs : List OutEvent), ∀ acc nlen nbuf,
      blockOp i (b.withOthers acc nlen nbuf) = .ok (b1.withOthers acc nlen nbuf, outs) := by
  have rsp : ∀ f, ∃ (b1 : Block) (outs : List OutEvent), ∀ acc nlen nbuf,
      deliverBuffer f (b.withOthers acc nlen nbuf) =
      .ok (b1.withOthers acc nlen nbuf, outs) := fun f => by
    obtain ⟨b1, h1, h2⟩ := receiveAll_inv f hb
    obtain ⟨r, hr⟩ := endBuffer_withOthers h2
    exact ⟨b1.clearParser, [.res r], fun acc nlen nbuf => by
      simp [deliverBuffer, receiveAll_withOthers f acc nlen nbuf h1, hr, emit]⟩
  cases i <;> simp [opClass] at h
  case rd r =>
    exact ⟨b, [.rdval (b.readReg r)], fun acc nlen nbuf => by cases r <;> simp at h <;> rfl⟩
  case setPre v => exact ⟨{ b with ctrl := ctrlWithPre b.ctrl v }, [], fun _ _ _ => rfl⟩
  case rx v =>
    obtain ⟨b1, h1, _⟩ := receive_inv v hb
    exact ⟨b1, [], fun acc nlen nbuf => by
      simp [blockOp, receiveByte, receive_withOthers acc nlen nbuf h1, quiet]⟩
  case rxEnd =>
    obtain ⟨r, hr⟩ := endBuffer_withOthers hb
    exact ⟨_, _, fun acc nlen nbuf => hr acc nlen nbuf⟩
  all_goals exact rsp _

end Sys2Proof.Machine
end

