-- ==== Sys2Proof/Tests/Slice0.lean ====
section
/-! SUPPORT. The model's own tests. Expected results are the spec's: the words of spec/30_encoding.md and
spec/41_encoder.md, the examples at the rules named, and the golden values of spec/40_checksum.md R130.
After them, for every statement with hypotheses a state and operands that meet all of them. -/

namespace Sys2Proof.Tests
open Sys2Proof.Machine

/-! ### Helpers -/

/-- The next state, if the outcome is one. -/
def nextOf (o : Host.Outcome State Fault Refusal) : Option State :=
  match o with
  | .next s => some s
  | .fault _ => none
  | .refused _ => none

/-- What an operation emits, from a state that has emitted nothing. -/
def outsOf (i : Instr) (s : State) : Option (List OutEvent) :=
  (nextOf (exec i s)).map (fun t => t.output)

/-- The machine after reset with a block. -/
def withBlock (b : Block) : State := { State.reset with block := b }

/-- A block in the middle of a buffer. -/
def busy (phase : Phase) (len cnt : Byte) (pacc : PaccWord) : Block :=
  { Block.reset with phase := phase, got := true, len := len, cnt := cnt, pacc := pacc }

/-- 24 entries holding `41`. -/
def fullName : Memory := (List.range 24).map (fun i => (i, 0x41))

/-- A block that holds a filename of `n` bytes `41`, or of more than 24 where `n` is 25. -/
def named (n : NlenWord) : Block := { Block.reset with nlen := n, nbuf := fullName }

/-- The block between buffers in the given mode, some bytes put on the CS port. -/
def ready (pre : Bool) : Block := { Block.reset with ctrl := ctrlWithPre 0 pre, acc := 7 }

/-- What the decoder reads, if it reads a frame. -/
def read (f : List Byte) : Option Decoded := (decode f).toOption

/-- Why the decoder refuses bytes, if it does. -/
def refusal (f : List Byte) : Option DecodeError :=
  match decode f with
  | .ok _ => none
  | .error e => some e

/-! ### Which terms are well formed -/

theorem test_wellFormed_refuses_wrong_length :
    [Instr.rspReadFileMore 2 [0x00] 0xEC, .rspDirectoryMore 0 [0x00] 0xEC,
      .rspGeneric12 0xFF [0x00] 0xEC, .rspDriveCondition 1 [] 0xE9].map Instr.wellFormed =
    [false, false, false, false] := by decide

theorem test_wellFormed_admits_right_length :
    [Instr.rspReadFileMore 0 [] 0xEF, .rspDirectoryMore 1 [0x00] 0xEC,
      .rspGeneric12 1 [0x00] 0xEC, .rspDriveCondition 1 [0x00] 0xE9].map Instr.wellFormed =
    [true, true, true, true] := by decide

theorem test_instance_refuses_wrong_checksum :
    (Decoded.isInstance ⟨.dirFirst, List.replicate 24 0x20, 0x9D, []⟩,
      Decoded.isInstance ⟨.dirFirst, List.replicate 24 0x20, 0x9E, []⟩) = (false, true) := by
  decide

/-! ### Decoding, on words written out from the encodings (R86 to R92, R101) -/

theorem test_decode_cmd0 :
    [[0x5A, 0x5A, 0x07, 0x00, 0xF8], [0x5A, 0x5A, 0x0C, 0x00, 0xF3],
      [0x5A, 0x5A, 0x02, 0x00, 0xFD], [0x5A, 0x5A, 0x06, 0x00, 0xF9],
      [0x5A, 0x5A, 0x05, 0x00, 0xFA]].map read =
    [some ⟨.driveStatus, [], 0xF8, []⟩, some ⟨.driveCondition, [], 0xF3, []⟩,
      some ⟨.close, [], 0xFD, []⟩, some ⟨.format, [], 0xF9, []⟩, some ⟨.erase, [], 0xFA, []⟩] := by
  decide

theorem test_decode_cmd0t :
    [[0x5A, 0x5A, 0x07, 0x00, 0xF8, 0x0D], [0x5A, 0x5A, 0x06, 0x00, 0xF9, 0x0D, 0x11]].map read =
    [some ⟨.driveStatusCr, [], 0xF8, []⟩, some ⟨.formatCr, [], 0xF9, [0x11]⟩] := by decide

/-- The frame of R88 with the filename `A`, `B`, then 22 spaces. -/
def dirWord (sf cks : Byte) : List Byte :=
  [0x5A, 0x5A, 0x00, 0x1A, 0x41, 0x42] ++ List.replicate 22 0x20 ++ [0x46, sf, cks]

theorem test_decode_cmddir :
    [dirWord 0x00 0x5C, dirWord 0x01 0x5B, dirWord 0x02 0x5A, dirWord 0x03 0x59,
      dirWord 0x04 0x58].map read =
    [some ⟨.dirRef, [0x41, 0x42] ++ List.replicate 22 0x20, 0x5C, []⟩,
      some ⟨.dirFirst, [0x41, 0x42] ++ List.replicate 22 0x20, 0x5B, []⟩,
      some ⟨.dirNext, [0x41, 0x42] ++ List.replicate 22 0x20, 0x5A, []⟩,
      some ⟨.dirPrev, [0x41, 0x42] ++ List.replicate 22 0x20, 0x59, []⟩,
      some ⟨.dirEnd, [0x41, 0x42] ++ List.replicate 22 0x20, 0x58, []⟩] := by decide

theorem test_decode_rsp :
    [[0x10, 0x00, 0xEF], [0x11, 0x02, 0x00, 0xFF, 0xED], [0x12, 0x01, 0x00, 0xEC, 0x0D],
      [0x15, 0x01, 0x00, 0xE9]].map read =
    [some ⟨.rspReadFileMore 0x00 [] 0xEF, [], 0xEF, []⟩,
      some ⟨.rspDirectoryMore 0x02 [0x00, 0xFF] 0xED, [], 0xED, []⟩,
      some ⟨.rspGeneric12 0x01 [0x00] 0xEC, [], 0xEC, [0x0D]⟩,
      some ⟨.rspDriveCondition 0x01 [0x00] 0xE9, [], 0xE9, []⟩] := by decide

/-- No row: the wrong literal of C1, a reserved search form, an unknown code, no byte at all; and a
response frame cut short. -/
theorem test_decode_refuses :
    [[0x5A, 0x5A, 0x0C, 0x00, 0xF2], dirWord 0x05 0x57, [0x99], [], [0x12, 0x02, 0x00, 0xEB]].map
      refusal =
    [some .noRow, some .noRow, some .noRow, some .noRow, some .cutShort] := by decide

theorem test_decodeTableWord : decodeTableWord 48 0x0DF800075A5A = some .driveStatusCr := by rfl

theorem test_encode_dirFirst :
    encode .dirFirst [] = some ([0x5A, 0x5A, 0x00, 0x1A] ++ List.replicate 24 0x20 ++
      [0x46, 0x01, 0x9E]) := by decide

theorem test_encode_long_name : encode .dirFirst (List.replicate 25 0x41) = none := by decide

/-! ### Functions and tables -/

/-- R130, with C1: the drive-condition checksum is `F3`. -/
theorem test_checksum_golden :
    [[0x07, 0x00], [0x02, 0x00], [0x06, 0x00], [0x05, 0x00], [0x0C, 0x00], [],
      [0x00, 0x1A] ++ List.replicate 24 0x20 ++ [0x46, 0x01],
      [0x00, 0x1A] ++ List.replicate 24 0x20 ++ [0x46, 0x02]].map checksum =
    [0xF8, 0xFD, 0xF9, 0xFA, 0xF3, 0xFF, 0x9E, 0x9D] := by decide

/-- R202 to R207. -/
theorem test_classify :
    [[0x10, 0x00, 0xEF], [0x11], [0x12, 0x01, 0x00, 0xEC], [0x15, 0x01, 0x00, 0xE9], [0x99],
      []].map classify =
    [.known .readFileMore, .known .directoryMore, .known .generic12, .known .driveCondition,
      .unrecognized 0x99, .empty] := by decide

/-- Register numbers and the eleven registers (R39, R40). -/
theorem test_register_numbers :
    (List.range 12).map (fun n => (regOfNumber n).map Reg.number) =
      (List.range 11).map some ++ [none] := by decide

/-- Rows of the error-code table (R95). -/
theorem test_error_codes :
    [ErrorCode.noError, .parameterError, .crcCheckErrorInData, .uninitializedDisk,
      .diskChangeError].map ErrorCode.code = [0x00, 0x36, 0x49, 0x5E, 0x71] := by decide

/-! ### Operations, one step each -/

theorem test_rst_drops_buffer :
    (nextOf (exec .rst (withBlock (busy .data 3 1 0x15)))).map (fun t => (t.block, t.output)) =
      some (Block.reset, []) := by decide

theorem test_rst_first :
    (nextOf (exec .rst { State.reset with launched := false })).map (fun t => t.launched) =
      some true := by decide

/-- R24: after `RST`, `SET_PRE(1)` gives `CTRL` = 01. -/
theorem test_setPre :
    (nextOf (exec (.setPre true) State.reset)).map (fun t => t.block.ctrl) = some 0x01 := by decide

theorem test_setPre_keeps_mode_of_buffer :
    (nextOf (exec (.setPre true) (withBlock (busy .len 0 0 0x12)))).map (fun t => t.block.pm) =
      some false := by decide

/-- R40: after `RST`, `RD(CSUM)` emits `FF`. -/
theorem test_rd_csum : outsOf (.rd .csum) State.reset = some [.rdval 0xFF] := by decide

/-- R35: `GOT`, `TRAIL`, `CKOK` and `NOVF`. -/
theorem test_rd_stat :
    outsOf (.rd .stat) (withBlock
      { named 25 with got := true, trail := true, ckok := true, phase := .done }) =
      some [.rdval 0x1D] := by decide

theorem test_csClr :
    (nextOf (exec .csClr (withBlock (ready false)))).map (fun t => t.block.csum) =
      some 0xFF := by decide

/-- R126: a wrap of `ACC` is silent. -/
theorem test_csPut_wraps :
    (nextOf (exec (.csPut 0x02) (withBlock { Block.reset with acc := 0xFFFFFFFF }))).map
      (fun t => t.block.acc) = some 1 := by decide

/-- R126: from `ACC` = 7, `CS_PUT 00` leaves `CSUM` = F8. -/
theorem test_csPut_zero :
    (nextOf (exec (.csPut 0x00) (withBlock (ready false)))).map (fun t => t.block.csum) =
      some 0xF8 := by decide

theorem test_nmClr :
    (nextOf (exec .nmClr (withBlock (named 25)))).map
      (fun t => (t.block.nlen, t.block.novf, t.block.nbuf)) = some (0, false, fullName) := by
  decide

/-- R144: the 24th byte fills `NBUF[23]`. -/
theorem test_nmPut_fills :
    (nextOf (exec (.nmPut 0x42) (withBlock (named 23)))).map
      (fun t => (t.block.nlen, t.block.nbuf.read 23, t.block.nbuf.read 22, t.block.novf)) =
      some (24, some 0x42, some 0x41, false) := by decide

/-- R144: the 25th byte is discarded and recorded. -/
theorem test_nmPut_overflows :
    (nextOf (exec (.nmPut 0x42) (withBlock (named 24)))).map
      (fun t => (t.block.nlen, t.block.nbuf, t.block.novf)) = some (25, fullName, true) := by
  decide

/-- R145, R160. -/
theorem test_encSimple :
    (outsOf (.encSimple 0x07 false) State.reset, outsOf (.encSimple 0x5A true) State.reset) =
      (some [.txf [0x5A, 0x5A, 0x07, 0x00, 0xF8]],
        some [.txf [0x5A, 0x5A, 0x5A, 0x00, 0xA5, 0x0D]]) := by decide

/-- R146: with `NLEN` = 0. -/
theorem test_encDir :
    outsOf (.encDir 0x01) State.reset = some [.txf ([0x5A, 0x5A, 0x00, 0x1A] ++
      List.replicate 24 0x20 ++ [0x46, 0x01, 0x9E])] := by decide

/-- R230: the filename error is reported first. -/
theorem test_encDir_errors :
    (outsOf (.encDir 0x05) (withBlock (named 24)), outsOf (.encDir 0x05) (withBlock (named 25))) =
      (some [.err .badSearchForm], some [.err .invalidFilename]) := by decide

/-- R171: `RX 12` from `IDLE` with `PRE` = 0. -/
theorem test_rx_first :
    (nextOf (exec (.rx 0x12) State.reset)).map (fun t =>
      (t.block.got, t.block.code, t.block.pm, t.block.type, t.block.pacc, t.block.phase)) =
      some (true, 0x12, false, 0x12, 0x0012, .len) := by decide

/-- R176: with `LEN` = 1, `CNT` = 0, `PACC` = 13, `RX 00`. -/
theorem test_rx_data :
    (nextOf (exec (.rx 0x00) (withBlock (busy .data 1 0 0x13)))).map (fun t =>
      (t.block.dbuf, t.block.pacc, t.block.cnt, t.block.phase)) =
      some ([(0, 0x00)], 0x0013, 1, .cks) := by decide

/-- R179: `RST; RX_END`. -/
theorem test_rxEnd_empty :
    outsOf .rxEnd State.reset = some [.res
      { cls := .empty, prs := .noFrame, pm := false, phase := .idle, type := 0, len := 0, cnt := 0,
        data := [], rck := 0, xck := 0xFF, kind := .miss, skip := false, trail := false }] := by
  decide

/-- R177, R179: the checksum byte did not match. -/
theorem test_rxEnd_mismatch :
    (outsOf .rxEnd (withBlock
      { busy .done 1 1 0x13 with code := 0x12, type := 0x12, dbuf := [(0, 0x00)], rck := 0xED })) =
      some [.res
        { cls := .known .generic12, prs := .checksumMismatch, pm := false, phase := .done,
          type := 0x12, len := 1, cnt := 1, data := [0x00], rck := 0xED, xck := 0xEC,
          kind := .hit .generic12, skip := false, trail := false }] := by decide

/-- R148 to R154: the literals. -/
theorem test_named_simple :
    [Instr.driveStatus, .driveStatusCr, .driveCondition, .close, .format, .formatCr, .erase].map
      (fun i => outsOf i State.reset) =
    [some [.txf [0x5A, 0x5A, 0x07, 0x00, 0xF8]], some [.txf [0x5A, 0x5A, 0x07, 0x00, 0xF8, 0x0D]],
      some [.txf [0x5A, 0x5A, 0x0C, 0x00, 0xF3]], some [.txf [0x5A, 0x5A, 0x02, 0x00, 0xFD]],
      some [.txf [0x5A, 0x5A, 0x06, 0x00, 0xF9]],
      some [.txf [0x5A, 0x5A, 0x06, 0x00, 0xF9, 0x0D]],
      some [.txf [0x5A, 0x5A, 0x05, 0x00, 0xFA]]] := by decide

/-- R155 to R159: with an empty filename. -/
theorem test_named_directory :
    [Instr.dirRef, .dirFirst, .dirNext, .dirPrev, .dirEnd].map (fun i => outsOf i State.reset) =
    [(0x00, 0x9F), (0x01, 0x9E), (0x02, 0x9D), (0x03, 0x9C), (0x04, 0x9B)].map
      (fun p : Byte × Byte => some [OutEvent.txf ([0x5A, 0x5A, 0x00, 0x1A] ++
        List.replicate 24 0x20 ++ [0x46, p.1, p.2])]) := by decide

/-- The record of a response frame delivered whole in format RSP. -/
def whole (k : Kind) (code len : Byte) (data : List Byte) (rck xck : Byte) : Res :=
  { cls := .known k, prs := if rck = xck then .frameOK else .checksumMismatch, pm := false,
    phase := .done, type := code, len := len, cnt := len, data := data, rck := rck, xck := xck,
    kind := .hit k, skip := false, trail := false }

/-- R202, R205, with the frames of their examples. -/
theorem test_response_rows :
    (outsOf (.rspReadFileMore 0x00 [] 0xEF) State.reset,
      outsOf (.rspDriveCondition 0x01 [0x00] 0xE9) State.reset) =
    (some [.res (whole .readFileMore 0x10 0 [] 0xEF 0xEF)],
      some [.res (whole .driveCondition 0x15 1 [0x00] 0xE9 0xE9)]) := by decide

/-- R209: a wrong checksum changes the status, not the classification. -/
theorem test_response_rows_mismatch :
    (outsOf (.rspGeneric12 0x01 [0x00] 0xED) State.reset,
      outsOf (.rspDirectoryMore 0x00 [] 0xEE) State.reset) =
    (some [.res (whole .generic12 0x12 1 [0x00] 0xED 0xEC)],
      some [.res (whole .directoryMore 0x11 0 [] 0xEE 0xEE)]) := by decide

theorem test_step_takes_event :
    (nextOf (step { State.reset with input := [.csPut 0x07, .rxEnd] })).map
      (fun t => (t.block.acc, t.input, t.history)) =
      some (7, [.rxEnd], [⟨.csPut 0x07, []⟩]) := by decide

theorem test_fetch_word_runs_first :
    (nextOf (step (State.reset.withFetchWord 40 0xFD00025A5A))).map (fun t => t.output) =
      some [.txf [0x5A, 0x5A, 0x02, 0x00, 0xFD]] := by rfl

/-! ### Witnesses: states and operands that meet the hypotheses of the statements -/

theorem ready_inv (pre : Bool) : State.Inv (withBlock (ready pre)) :=
  ⟨rfl, ((Block.resetWith_inv (Memory.nil_wf _) (Memory.nil_wf _)).withPre pre).withAcc 7⟩

theorem named_inv (n : NlenWord) (hn : n.toNat ≤ 25)
    (hh : fullName.firstFrom 0 (min n.toNat 24) = some (List.replicate (min n.toNat 24) 0x41)) :
    State.Inv (withBlock (named n)) :=
  ⟨rfl, (Block.resetWith_inv (Memory.nil_wf _) (Memory.nil_wf _)).withName hn (by decide) hh⟩

theorem overflow_inv : State.Inv (withBlock (named 25)) := named_inv 25 (by decide) (by decide)

/-- `DecodeReadsEncodedFrame`: a constant row with no trailer after it, a directory row, a response. -/
theorem test_witness_DecodeReadsEncodedFrame :
    (Instr.driveStatus.wellFormed = true ∧
      encode .driveStatus [] = some [0x5A, 0x5A, 0x07, 0x00, 0xF8] ∧
      [0x0A#8].head? ≠ some 0x0D) ∧
    (Instr.dirEnd.wellFormed = true ∧ (encode .dirEnd (List.replicate 24 0x41)).isSome = true) ∧
    (Instr.wellFormed (.rspGeneric12 1 [0x00] 0xEC) = true ∧
      (encode (.rspGeneric12 1 [0x00] 0xEC) []).isSome = true) := by decide

theorem test_witness_EncodeRestoresDecodedBytes :
    (∃ d, decode (dirWord 0x01 0x5B) = .ok d ∧ d.isInstance = true) ∧
    (∃ d, decode [0x12, 0x01, 0x00, 0xED] = .ok d ∧ d.isInstance = true) :=
  ⟨⟨_, rfl, by decide⟩, ⟨_, rfl, by decide⟩⟩

theorem test_witness_RowsOfOneWidthDoNotOverlap :
    cmd0Row .close 0x02 0xFD ∈ frameRows ∧
    (cmd0Row .close 0x02 0xFD).covers [0x5A, 0x5A, 0x02, 0x00, 0xFD] = true := by decide

theorem test_witness_NoBytesDecodeToAnOperation :
    decode [0x11, 0x00, 0xEE] = .ok ⟨.rspDirectoryMore 0 [] 0xEE, [], 0xEE, []⟩ := by rfl

theorem test_witness_ChecksumWidthIrrelevant : 8 ≤ 8 ∧ 8 ≤ 32 := by decide

/-- Clause (f) at its least `k`, and the values R124 gives for one byte and for two. -/
theorem test_witness_ChecksumArithmeticLaws :
    1 ≤ 1 ∧ [1, 2].map (fun k => checksum (List.replicate k 0xFF)) = [0x00, 0x01] := by decide

theorem test_witness_ChecksumStructuralLaws :
    byteSum [0xFF, 0x01] % 256 = byteSum [0x00] % 256 ∧ [1#8, 2#8].Perm [2#8, 1#8] := by decide

/-- `CsClrClearsOnlyAcc`, `CsPutAddsOnlyToAcc`, `NmClrClearsOnlyNlen`, `EncSimpleEmitsFrame`,
`SetPreWritesOnlyPre`, `RdReadsRegisterTable`: the machine has been reset. -/
theorem test_witness_launched : (withBlock (ready true)).launched = true := by decide

/-- `CsumFollowsBytesPut`, its second clause: an encoder's and a parser's operation. -/
theorem test_witness_CsumFollowsBytesPut :
    State.Inv (withBlock (ready true)) ∧
    opClass (.encDir 1) = some .en ∧ opClass .rxEnd = some .rxp := ⟨ready_inv true, by decide⟩

/-- `CsumFollowsBytesPut`, `FilenameTraceBuildsCommand`, `EveryStepCompletes`,
`RstDropsPartialBuffer`. -/
theorem test_witness_Inv : State.Inv (withBlock (ready true)) := ready_inv true

/-- `NmPutAppendsOrSaturates`: the last byte that fits, and the first that does not. -/
theorem test_witness_NmPutAppendsOrSaturates :
    (withBlock (named 23)).launched = true ∧ (named 23).nlen.toNat < 24 ∧
    (withBlock (named 24)).launched = true ∧ ¬ (named 24).nlen.toNat < 24 := by decide

theorem test_witness_NamedSimpleCommandsEmitLiterals :
    State.reset.launched = true ∧ (Instr.erase, [0x5A#8, 0x5A, 0x05, 0x00, 0xFA]) ∈ [
      (Instr.driveStatus, [0x5A, 0x5A, 0x07, 0x00, 0xF8]),
      (.driveStatusCr, [0x5A, 0x5A, 0x07, 0x00, 0xF8, 0x0D]),
      (.driveCondition, [0x5A, 0x5A, 0x0C, 0x00, 0xF3]),
      (.close, [0x5A, 0x5A, 0x02, 0x00, 0xFD]),
      (.format, [0x5A, 0x5A, 0x06, 0x00, 0xF9]),
      (.formatCr, [0x5A, 0x5A, 0x06, 0x00, 0xF9, 0x0D]),
      (.erase, [0x5A, 0x5A, 0x05, 0x00, 0xFA])] := by decide

/-- `EncDirRepliesInOrder`, clause by clause, at 25, at 24 with form 5, at 24 and 0 with form 4. -/
theorem test_witness_EncDirRepliesInOrder :
    (withBlock (named 25)).launched = true ∧ (named 25).nlen.toNat = 25 ∧
    (named 24).nlen.toNat ≤ 24 ∧ (5#8).toNat > 4 ∧
    (4#8).toNat ≤ 4 ∧ (named 24).nameHeld = some (List.replicate 24 0x41) ∧
    (named 0).nlen.toNat ≤ 24 ∧ (named 0).nameHeld = some [] := by decide

theorem test_witness_DirectoryRowsEncodeLoadedName :
    (withBlock (named 24)).launched = true ∧
    (Instr.dirEnd, 0x04#8) ∈ [(Instr.dirRef, 0x00#8), (.dirFirst, 0x01#8), (.dirNext, 0x02#8),
      (.dirPrev, 0x03#8), (.dirEnd, 0x04#8)] ∧
    (named 25).nlen.toNat = 25 ∧ (named 24).nlen.toNat ≤ 24 ∧
    (named 24).nameHeld = some (List.replicate 24 0x41) := by decide

theorem test_witness_EncodersArePure :
    State.Inv (withBlock (ready true)) ∧ (withBlock (ready false)).launched = true ∧
    (ready false).nlen = (ready true).nlen ∧ (ready false).nbuf = (ready true).nbuf ∧
    Instr.dirRef ∈ [Instr.driveStatus, .driveStatusCr, .driveCondition, .close, .format, .formatCr,
      .erase, .dirRef, .dirFirst, .dirNext, .dirPrev, .dirEnd] := ⟨ready_inv true, by decide⟩

theorem test_witness_FilenameOverflowIsSticky :
    State.Inv (withBlock (named 25)) ∧ (named 25).nlen.toNat = 25 ∧
    Instr.nmClr ∉ [Instr.nmPut 0x41, .rxEnd] ∧ Instr.rst ∉ [Instr.nmPut 0x41, .rxEnd] :=
  ⟨overflow_inv, by decide⟩

/-- `RxBeginsBuffer`, its three clauses. -/
theorem test_witness_RxBeginsBuffer :
    (withBlock (ready false)).launched = true ∧ (ready false).phase = .idle ∧
    (ready true).phase = .idle ∧ (ready false).pre = false ∧ (ready true).pre = true ∧
    (0x5B#8) ≠ 0x5A := by decide

theorem test_witness_RxHuntsPreamble :
    (withBlock (busy .hunt 0 0 0)).launched = true ∧ (busy .hunt 0 0 0).phase = .hunt ∧
    (busy .pre2 0 0 0).phase = .pre2 := by decide

theorem test_witness_RxTakesTypeAndLength :
    (withBlock (busy .type 0 0 0)).launched = true ∧ (busy .type 0 0 0).phase = .type ∧
    (busy .len 0 0 0).phase = .len := by decide

/-- `RxTakesDataByte`: the last data byte of the longest frame, and the first of two. -/
theorem test_witness_RxTakesDataByte :
    (withBlock (busy .data 255 254 0)).launched = true ∧ (busy .data 255 254 0).phase = .data ∧
    (busy .data 255 254 0).cnt.toNat < (busy .data 255 254 0).len.toNat ∧
    (busy .data 2 0 0).cnt.toNat < (busy .data 2 0 0).len.toNat := by decide

theorem test_witness_RxTakesChecksumAndTrail :
    (withBlock (busy .cks 0 0 0)).launched = true ∧ (busy .cks 0 0 0).phase = .cks ∧
    (busy .done 0 0 0).phase = .done := by decide

/-- `PhaseMovesByTable`, `OperationsEmitTheirOutputs`, `AccAndCtrlHaveTheirWriters`,
`FilenameHasItsWriters`, `ParserHasItsWriters`: an operation of each sort answers a next state. -/
theorem test_witness_next_states :
    [Instr.rst, .setPre true, .rd .stat, .csClr, .csPut 1, .nmClr, .nmPut 1, .encSimple 7 false,
      .encDir 1, .rx 1, .rxEnd, .driveStatus, .dirRef, .rspGeneric12 1 [0x00] 0xEC].all
      (fun i => (nextOf (exec i (withBlock (named 3)))).isSome) = true := by decide

theorem test_witness_RxEndReportsAndClears :
    (withBlock { busy .cks 1 1 0x13 with dbuf := [(0, 0x41)] }).launched = true ∧
    Block.dataHeld { busy .cks 1 1 0x13 with dbuf := [(0, 0x41)] } = some [0x41] := by decide

/-- `UnheldEntriesFault`, its three clauses. -/
theorem test_witness_UnheldEntriesFault :
    ((withBlock (busy .data 0 255 0)).launched = true ∧ (busy .data 0 255 0).phase = .data ∧
      (busy .data 0 255 0).cnt = 255) ∧
    (busy .cks 1 1 0).dataHeld = none ∧
    (Block.nameHeld { Block.reset with nlen := 1 } = none ∧ (4#8).toNat ≤ 4) := by decide

/-- `FormatRspParsesBuffer` and, for the other mode, `FormatFParsesBuffer`; both are met by what
`ResultClassifiesByteZero` asks, with the buffer `12 00`. -/
theorem test_witness_parse_modes :
    (State.Inv (withBlock (ready false)) ∧ (ready false).phase = .idle ∧
      (ready false).pre = false) ∧
    (State.Inv (withBlock (ready true)) ∧ (ready true).phase = .idle ∧ (ready true).pre = true) ∧
    [0x12#8, 0x00] = 0x12 :: [0x00] := ⟨⟨ready_inv false, by decide⟩, ⟨ready_inv true, by decide⟩, rfl⟩

/-- `NoStateSurvivesBuffer`: two machines that differ in the filename and in `ACC`. -/
theorem test_witness_NoStateSurvivesBuffer :
    (nextOf (exec .rxEnd (withBlock (ready true)))).isSome = true ∧
    State.Inv (withBlock (ready false)) ∧ State.Inv (withBlock (named 25)) ∧
    (ready false).phase = .idle ∧ (named 25).phase = .idle ∧ (ready false).pre = (named 25).pre :=
  ⟨by decide, ready_inv false, overflow_inv, by decide⟩

/-- `EncodedFramesLoopBack`: the second clause, with an empty filename and the last search form. -/
theorem test_witness_EncodedFramesLoopBack :
    State.Inv (withBlock (ready true)) ∧ (ready true).phase = .idle ∧ (ready true).pre = true ∧
    (ready true).nlen.toNat ≤ 24 ∧ (4#8).toNat ≤ 4 ∧ (ready true).nameHeld = some [] :=
  ⟨ready_inv true, by decide⟩

theorem test_witness_NamedFramesDelivered :
    State.Inv (withBlock (ready true)) ∧ (ready true).phase = .idle ∧
    encode .formatCr [] = some [0x5A, 0x5A, 0x06, 0x00, 0xF9, 0x0D] ∧
    ∀ len data cks, Instr.formatCr ≠ .rspReadFileMore len data cks ∧
      Instr.formatCr ≠ .rspDirectoryMore len data cks ∧
      Instr.formatCr ≠ .rspGeneric12 len data cks ∧
      Instr.formatCr ≠ .rspDriveCondition len data cks :=
  ⟨ready_inv true, by decide, by decide, by simp⟩

theorem test_witness_SetPreWaitsForNextBuffer :
    State.Inv (withBlock (ready false)) ∧ (ready false).phase = .idle := ⟨ready_inv false, by decide⟩

/-- `ResponseRowsDeliverFrame` from `IDLE` (and, for its other clause, a busy phase), and
`ResponseRowsAreKnown`. -/
theorem test_witness_ResponseRows :
    State.Inv (withBlock (ready false)) ∧ (ready false).phase = .idle ∧
    (ready false).pre = false ∧ Instr.wellFormed (.rspGeneric12 1 [0x00] 0xEC) = true ∧
    (Kind.generic12, Instr.rspGeneric12 1 [0x00] 0xEC) ∈
      [(Kind.readFileMore, Instr.rspReadFileMore 1 [0x00] 0xEC),
        (.directoryMore, .rspDirectoryMore 1 [0x00] 0xEC),
        (.generic12, .rspGeneric12 1 [0x00] 0xEC),
        (.driveCondition, .rspDriveCondition 1 [0x00] 0xEC)] := ⟨ready_inv false, by decide⟩

/-- `ResponseRowsDeliverFrame`, its last clause: in the middle of a buffer. -/
theorem test_witness_ResponseRows_busy :
    ∃ b, receive 0x10 (ready false) = .ok b ∧ b.Inv ∧ b.phase ≠ .idle := by
  obtain ⟨b, h1, h2⟩ := receive_inv 0x10 (ready_inv false).2
  refine ⟨b, h1, h2, ?_⟩
  injection h1 with h1
  subst h1
  decide

theorem test_witness_OnlyRstBeforeLaunch :
    ({ State.reset with launched := false } : State).launched = false := by decide

theorem test_witness_StepKeepsInvariant :
    State.Inv { withBlock (ready true) with input := [.rx 0x5A] } ∧
    (nextOf (step { withBlock (ready true) with input := [.rx 0x5A] })).isSome = true :=
  ⟨ready_inv true, by decide⟩

theorem test_witness_StepKeepsBuffersCanonical :
    Memory.wf 255 (named 23).dbuf ∧ Memory.wf 24 (named 23).nbuf ∧
    (nextOf (step { withBlock (named 23) with input := [.nmPut 0x42] })).isSome = true := by decide

/-- `OperationClassesCommute`: two classes, and `RD(STAT)` with the checksum port. -/
theorem test_witness_OperationClassesCommute :
    State.Inv (withBlock (ready true)) ∧
    (opClass (.csPut 1) = some .cs ∧ opClass .rxEnd = some .rxp ∧ OpClass.cs ≠ OpClass.rxp) ∧
    opClass (.rd .csum) = some .cs := ⟨ready_inv true, by decide⟩

theorem test_witness_StepRunsPresentedEvent :
    ({ State.reset with input := [.csClr, .rxEnd] } : State).input = [.csClr, .rxEnd] := by decide

/-- `FetchWordRunsDecodedInstruction`: a row with a filename field and one without. -/
theorem test_witness_FetchWordRunsDecodedInstruction :
    (∃ d, decode (wordBytes 40 0xFD00025A5A) = .ok d ∧ d.instr.searchForm = none) ∧
    (∃ d, decode (wordBytes 248
        0x9E01462020202020202020202020202020202020202020202020201A005A5A) = .ok d ∧
      d.instr.searchForm ≠ none) := ⟨⟨_, rfl, rfl⟩, ⟨_, rfl, by decide⟩⟩

theorem test_witness_IdleStepKeepsBlock : State.reset.input = [] := by decide

theorem test_witness_StepsFoldPresentedEvents :
    (nextOf (runTrace [.csPut 1, .rd .csum] State.reset)).map (fun t => t.output) =
      some [.rdval 0xFE] := by decide

end Sys2Proof.Tests
end

section
/-! PROOFS. The registers and the invariant of spec/10_state.md: what each operation may write, said once
(`Writes`), and the statements about reset, `SET_PRE`, `RD`, the frames and the step (R21 to R44). -/

namespace Sys2Proof.Machine

/-! ### What an operation may write -/

/-- The rows that write no register and no buffer: `RD`, `ENC_SIMPLE`, `ENC_DIR` and the named command
rows, which expand to the two encoders (R40, R142, R99). -/
def readsOnly (i : Instr) : Bool :=
  match i with
  | .rd _ | .encSimple _ _ | .encDir _ | .driveStatus | .driveStatusCr | .driveCondition | .close
  | .format | .formatCr | .erase | .dirRef | .dirFirst | .dirNext | .dirPrev | .dirEnd => true
  | .rst | .setPre _ | .csClr | .csPut _ | .nmClr | .nmPut _ | .rx _ | .rxEnd
  | .rspReadFileMore _ _ _ | .rspDirectoryMore _ _ _ | .rspGeneric12 _ _ _
  | .rspDriveCondition _ _ _ => false

/-- `Writes b i b'`: the block `b'` is what instruction `i` may leave of the block `b`, one case per
operation that writes state. `exec_writes` ties it to `exec`. -/
inductive Writes (b : Block) : Instr → Block → Prop where
  | nothing {i : Instr} (hi : readsOnly i = true) : Writes b i b
  | rst : Writes b .rst b.resetRegisters
  | setPre (v : Bool) : Writes b (.setPre v) { b with ctrl := ctrlWithPre b.ctrl v }
  | csClr : Writes b .csClr { b with acc := 0 }
  | csPut (v : Byte) : Writes b (.csPut v) { b with acc := b.acc + v.zeroExtend 32 }
  | nmClr : Writes b .nmClr { b with nlen := 0 }
  | nmPutStore (v : Byte) (hlt : b.nlen.toNat < 24) :
      Writes b (.nmPut v) { b with nlen := b.nlen + 1, nbuf := b.nbuf.write b.nlen.toNat v }
  | nmPutOverflow (v : Byte) (hge : 24 ≤ b.nlen.toNat) : Writes b (.nmPut v) { b with nlen := 25 }
  | rx {v : Byte} {b' : Block} (hr : receive v b = .ok b') : Writes b (.rx v) b'
  | rxEnd : Writes b .rxEnd b.clearParser
  | response {k : Kind} {len : Byte} {data : List Byte} {cks : Byte} {b' : Block}
      (hr : receiveAll (responseFrame k len data cks) b = .ok b') :
      Writes b (rspInstr k len data cks) b'.clearParser

/-- The block of every effect is one the instruction may leave. -/
theorem blockOp_writes {i : Instr} {b b' : Block} {outs : List OutEvent}
    (h : blockOp i b = .ok (b', outs)) : Writes b i b' := by
  have of_effect : ∀ {c : Block} {os : List OutEvent},
      (.ok (c, os) : Effect) = .ok (b', outs) → Writes b i c → Writes b i b' := by
    intro c os he hw
    injection he with he
    injection he with he
    exact he ▸ hw
  have of_encodeDirectory : ∀ {sf : Byte}, encodeDirectory sf b = .ok (b', outs) →
      readsOnly i = true → Writes b i b' := by
    intro sf hd hi
    rw [(encodeDirectory_cases hd).1]
    exact .nothing hi
  have of_deliverBuffer : ∀ {k : Kind} {len : Byte} {data : List Byte} {cks : Byte},
      deliverBuffer (responseFrame k len data cks) b = .ok (b', outs) →
      Writes b (rspInstr k len data cks) b' := by
    intro k len data cks hd
    obtain ⟨b1, hr, rfl, -⟩ := deliverBuffer_cases hd
    exact .response hr
  cases i with
  | rst => exact of_effect h .rst
  | setPre v => exact of_effect h (.setPre v)
  | csClr => exact of_effect h .csClr
  | csPut v => exact of_effect h (.csPut v)
  | nmClr => exact of_effect h .nmClr
  | nmPut v =>
    obtain ⟨-, ⟨hlt, rfl⟩ | ⟨hge, rfl⟩⟩ := nmPut_cases h
    · exact .nmPutStore v hlt
    · exact .nmPutOverflow v hge
  | rx v => exact .rx (receiveByte_cases h).2
  | rxEnd => rw [(endBuffer_cases h).1]; exact .rxEnd
  | rd _ | encSimple _ _ | driveStatus | driveStatusCr | driveCondition | close | format
  | formatCr | erase => exact of_effect h (.nothing rfl)
  | encDir _ | dirRef | dirFirst | dirNext | dirPrev | dirEnd => exact of_encodeDirectory h rfl
  | rspReadFileMore _ _ _ => exact of_deliverBuffer (k := .readFileMore) h
  | rspDirectoryMore _ _ _ => exact of_deliverBuffer (k := .directoryMore) h
  | rspGeneric12 _ _ _ => exact of_deliverBuffer (k := .generic12) h
  | rspDriveCondition _ _ _ => exact of_deliverBuffer (k := .driveCondition) h

/-- The block of every next state is one the instruction may leave. -/
theorem exec_writes {i : Instr} {s t : State} (h : exec i s = .next t) :
    Writes s.block i t.block := by
  obtain ⟨rfl, rfl⟩ | ⟨-, -, b, outs, hb, rfl⟩ := exec_eq_next h
  · exact .rst
  · exact blockOp_writes hb

/-! ### The frames of the registers and buffers -/

/-- `i` is none of the four response rows. -/
def notResponse (i : Instr) : Prop :=
  ∀ len data cks, i ≠ .rspReadFileMore len data cks ∧ i ≠ .rspDirectoryMore len data cks ∧
    i ≠ .rspGeneric12 len data cks ∧ i ≠ .rspDriveCondition len data cks

/-- `rspInstr` names the response rows. -/
theorem not_notResponse_rspInstr (k : Kind) (len : Byte) (data : List Byte) (cks : Byte) :
    ¬ notResponse (rspInstr k len data cks) := by
  intro h
  obtain ⟨h0, h1, h2, h3⟩ := h len data cks
  cases k with
  | readFileMore => exact h0 rfl
  | directoryMore => exact h1 rfl
  | generic12 => exact h2 rfl
  | driveCondition => exact h3 rfl

section
variable {b b' : Block} {i : Instr}

/-- The writers of `ACC` (R21). -/
theorem Writes.acc_writers (h : Writes b i b') (hne : b'.acc ≠ b.acc) :
    i = .rst ∨ i = .csClr ∨ ∃ v, i = .csPut v := by
  cases h with
  | rst => exact .inl rfl
  | csClr => exact .inr (.inl rfl)
  | csPut v => exact .inr (.inr ⟨v, rfl⟩)
  | rx hr => exact absurd (receive_frame hr).1 hne
  | response hr => exact absurd (receiveAll_frame hr).1 hne
  | nothing | setPre | nmClr | nmPutStore | nmPutOverflow | rxEnd => exact absurd rfl hne

/-- The writers of `CTRL` (R23). -/
theorem Writes.ctrl_writers (h : Writes b i b') (hne : b'.ctrl ≠ b.ctrl) :
    i = .rst ∨ ∃ v, i = .setPre v := by
  cases h with
  | rst => exact .inl rfl
  | setPre v => exact .inr ⟨v, rfl⟩
  | rx hr => exact absurd (receive_frame hr).2.1 hne
  | response hr => exact absurd (receiveAll_frame hr).2.1 hne
  | nothing | csClr | csPut | nmClr | nmPutStore | nmPutOverflow | rxEnd => exact absurd rfl hne

/-- The writers of `NLEN` (R38). -/
theorem Writes.nlen_writers (h : Writes b i b') (hne : b'.nlen ≠ b.nlen) :
    i = .rst ∨ i = .nmClr ∨ ∃ v, i = .nmPut v := by
  cases h with
  | rst => exact .inl rfl
  | nmClr => exact .inr (.inl rfl)
  | nmPutStore v | nmPutOverflow v => exact .inr (.inr ⟨v, rfl⟩)
  | rx hr => exact absurd (receive_frame hr).2.2.1 hne
  | response hr => exact absurd (receiveAll_frame hr).2.2.1 hne
  | nothing | setPre | csClr | csPut | rxEnd => exact absurd rfl hne

/-- The one store to `NBUF` is that of `NM_PUT` at `NLEN` (R37, R144). -/
theorem Writes.nbuf_writer (h : Writes b i b') {a : Nat}
    (hne : b'.nbuf.read a ≠ b.nbuf.read a) :
    (∃ v, i = .nmPut v) ∧ a = b.nlen.toNat ∧ a < 24 := by
  cases h with
  | nmPutStore v hlt =>
    have ha : a = b.nlen.toNat :=
      Decidable.byContradiction fun hna => hne (by rw [Memory.read_write, if_neg hna])
    exact ⟨⟨v, rfl⟩, ha, ha ▸ hlt⟩
  | rx hr => exact absurd (by rw [(receive_frame hr).2.2.2.1]) hne
  | response hr => exact absurd (by rw [Block.clearParser_nbuf, (receiveAll_frame hr).2.2.2]) hne
  | nothing | rst | setPre | csClr | csPut | nmClr | nmPutOverflow | rxEnd => exact absurd rfl hne

/-- Outside `RX`, `RX_END`, `RST` and the response rows the parser is left as it is (R25 to R36). -/
theorem Writes.parser_kept (h : Writes b i b') (hresp : notResponse i) (hrst : i ≠ .rst)
    (hend : i ≠ .rxEnd) (hrx : ∀ v, i ≠ .rx v) :
    b' = { b with acc := b'.acc, ctrl := b'.ctrl, nlen := b'.nlen, nbuf := b'.nbuf } := by
  cases h with
  | rst => exact absurd rfl hrst
  | rxEnd => exact absurd rfl hend
  | rx => exact absurd rfl (hrx _)
  | response => exact absurd hresp (not_notResponse_rspInstr _ _ _ _)
  | nothing | setPre | csClr | csPut | nmClr | nmPutStore | nmPutOverflow => rfl

/-- The one store to `DBUF` is that of `RX` at `CNT` in phase `DATA` (R36, R176). -/
theorem Writes.dbuf_writer (h : Writes b i b') (hresp : notResponse i) {a : Nat}
    (hne : b'.dbuf.read a ≠ b.dbuf.read a) :
    (∃ v, i = .rx v) ∧ b.phase = .data ∧ a = b.cnt.toNat := by
  cases h with
  | rx hr =>
    obtain ⟨-, -, -, -, hstore, -⟩ := receive_frame hr
    exact ⟨⟨_, rfl⟩, hstore a hne⟩
  | response => exact absurd hresp (not_notResponse_rspInstr _ _ _ _)
  | nothing | rst | setPre | csClr | csPut | nmClr | nmPutStore | nmPutOverflow | rxEnd =>
    exact absurd rfl hne

end

/-! ### One step -/

/-- What a step can do: stay idle, or run the first presented event and record it (R69, R238). -/
theorem step_eq_next {s t : State} (h : step s = .next t) :
    t = idle s ∨ ∃ i rest u, s.input = i :: rest ∧
      exec i { s with input := rest, output := [] } = .next u ∧
      t = { u with history := u.history ++ [⟨i, u.output⟩] } := by
  cases hin : s.input with
  | nil =>
    simp only [step, nextEvent, hin] at h
    injection h with h
    exact .inl h.symm
  | cons i rest =>
    simp only [step, nextEvent, hin] at h
    cases hex : exec i { s with input := rest, output := [] } with
    | next u =>
      rw [hex] at h
      injection h with h
      exact .inr ⟨i, rest, u, rfl, hex, h.symm⟩
    | fault f => rw [hex] at h; cases h
    | refused r => rw [hex] at h; cases h

/-- Every next state of an operation on a machine that meets R44 meets it. -/
theorem exec_inv {i : Instr} {s t : State} (hs : s.Inv) (h : exec i s = .next t) : t.Inv := by
  obtain ⟨b, outs, -, hex, hinv⟩ := exec_of_inv i hs
  rw [hex] at h
  injection h with h
  exact h ▸ hinv

/-! ### The bits of `CTRL` and `STAT` -/

/-- Writing `PRE` sets bit 0 and keeps the reserved bits (R23, R24). -/
theorem ctrlWithPre_getLsbD (c : Byte) (v : Bool) (k : Nat) :
    (ctrlWithPre c v).getLsbD k = if k = 0 then v else c.getLsbD k := by
  have hmask : 0xFE#8 = ~~~1#8 := rfl
  have hbit : (if v then 1#8 else 0#8).getLsbD k = (v && decide (k = 0)) := by
    cases v <;> simp [BitVec.getLsbD_one]
  rw [ctrlWithPre, hmask, BitVec.getLsbD_or, BitVec.getLsbD_and, BitVec.getLsbD_not,
    BitVec.getLsbD_one, hbit]
  by_cases h0 : k = 0
  · simp [h0]
  · by_cases hk : k < 8
    · simp [h0, hk]
    · simp [h0, BitVec.getLsbD_of_ge c k (Nat.le_of_not_lt hk)]

/-- `CTRL` reads as `PRE` in bit 0 and 0 above it (R23). -/
theorem Block.ctrlRead_eq (b : Block) : b.ctrlRead = if b.pre then 0x01 else 0x00 := by
  rw [Block.ctrlRead, BitVec.and_one_eq_setWidth_ofBool_getLsbD, Block.pre]
  cases b.ctrl.getLsbD 0 <;> rfl

/-- `NOVF` as a number (R38). -/
theorem Block.novf_eq (b : Block) : b.novf = decide (b.nlen.toNat = 25) := by
  rw [Block.novf, Bool.beq_eq_decide_eq, decide_eq_decide, ← BitVec.toNat_inj]
  rfl

/-- The bits of `STAT` (R35). -/
theorem Block.stat_bits (b : Block) :
    b.stat.getLsbD 0 = b.got ∧ b.stat.getLsbD 1 = b.skip ∧ b.stat.getLsbD 2 = b.trail ∧
    b.stat.getLsbD 3 = b.ckok ∧ b.stat.getLsbD 4 = b.novf ∧ b.stat.getLsbD 5 = b.pm ∧
    b.stat.getLsbD 6 = false ∧ b.stat.getLsbD 7 = false := by
  simp only [Block.stat, BitVec.getLsbD_append]
  simp

/-- `PHASE` reads as its number (R25, R39). -/
theorem Block.phase_read (b : Block) : (b.readReg .phase).toNat = b.phase.code.toNat := by
  cases h : b.phase <;> simp [Block.readReg, h, Phase.code]

/-- `NLEN` reads as its number (R39). -/
theorem Block.nlen_read (b : Block) : (b.readReg .nlen).toNat = b.nlen.toNat := by
  have := b.nlen.isLt
  simp only [Block.readReg, BitVec.zeroExtend, BitVec.toNat_setWidth]
  omega

/-! ### The statements -/

/-- Settles O45: an idle step leaves the block, and a step that runs an event is `exec` of it, which keeps
R44 for every instruction. -/
theorem stepKeepsInvariant : Obligations.StepKeepsInvariant := by
  intro s t hs h
  obtain rfl | ⟨i, rest, u, -, hex, rfl⟩ := step_eq_next h
  · exact hs
  · have hu : u.Inv := exec_inv (s := { s with input := rest, output := [] }) hs hex
    exact hu

/-- Settles O48, by the writers of `ACC` and of `CTRL` among the cases of `Writes`. -/
theorem accAndCtrlHaveTheirWriters : Obligations.AccAndCtrlHaveTheirWriters :=
  fun _ _ _ h => ⟨(exec_writes h).acc_writers, (exec_writes h).ctrl_writers⟩

/-- Settles O49, by the writers of `NLEN` and the one store to `NBUF`. -/
theorem filenameHasItsWriters : Obligations.FilenameHasItsWriters :=
  fun _ _ _ h => ⟨(exec_writes h).nlen_writers, fun _ => (exec_writes h).nbuf_writer⟩

/-- Settles O50, by the parser's writers and the one store to `DBUF`. -/
theorem parserHasItsWriters : Obligations.ParserHasItsWriters :=
  fun _ _ _ h hresp =>
    ⟨(exec_writes h).parser_kept hresp, fun _ => (exec_writes h).dbuf_writer hresp⟩

/-- Settles O41: the bits of `ctrlWithPre` are the bits of the new `CTRL`. -/
theorem setPreWritesOnlyPre : Obligations.SetPreWritesOnlyPre := by
  intro v s hl
  have hnext : exec (.setPre v) s =
      .next { s with block := { s.block with ctrl := ctrlWithPre s.block.ctrl v } } :=
    State.perform_quiet (op := setPre v) hl rfl
  refine ⟨_, hnext, ctrlWithPre_getLsbD _ v 0, fun k hk => ?_, rfl⟩
  rw [ctrlWithPre_getLsbD, if_neg (by omega)]

/-- Settles O42: `RD` emits `Block.readReg`, whose value is the register table's, register by register. -/
theorem rdReadsRegisterTable : Obligations.RdReadsRegisterTable := by
  intro r s hl
  refine ⟨s.block.readReg r, State.perform_emit hl rfl, ?_⟩
  cases r with
  | ctrl => exact s.block.ctrlRead_eq
  | stat => rw [← Block.novf_eq]; exact s.block.stat_bits
  | phase => rw [Block.phase_read]; cases s.block.phase <;> rfl
  | nlen => exact s.block.nlen_read
  | csum | type | len | cnt | rck | xck | code => rfl

/-- Settles O44: the reset values meet R44 with the empty buffers. -/
theorem resetMeetsInvariant : Obligations.ResetMeetsInvariant :=
  ⟨rfl, Block.resetWith_inv (Memory.nil_wf _) (Memory.nil_wf _)⟩

end Sys2Proof.Machine
end

section
/-! PROOFS. The operations one after another (spec/20_memory.md R60 to R73): what each emits, the canonical
form of the buffers, where a buffer access stops the machine, operations of different classes in either
order, and steps over presented events as the fold of the operations. -/

namespace Sys2Proof.Machine

/-! ### What an operation emits (R69) -/

section
variable {b b' : Block} {outs : List OutEvent}

/-- A quiet effect has no output. -/
theorem outs_of_quiet (h : quiet b = .ok (b', outs)) : outs = [] := by
  injection h with h
  injection h with _ h
  exact h.symm

/-- An emitting effect has its one output. -/
theorem outs_of_emit {o : OutEvent} (h : emit o b = .ok (b', outs)) : outs = [o] := by
  injection h with h
  injection h with _ h
  exact h.symm

end

/-- Settles O47: the outputs of a next state are those of its effect, which is quiet, one emission, or one
of the three effects with a lemma of their own (`ENC_DIR`, `RX_END`, the delivery of a buffer). -/
theorem operationsEmitTheirOutputs : Obligations.OperationsEmitTheirOutputs := by
  intro i s t h
  obtain ⟨rfl, rfl⟩ | ⟨hi, -, b, outs, hb, rfl⟩ := exec_eq_next h
  · rfl
  have append : ∀ {os : List OutEvent}, outs = os → (s.commit b outs).output = s.output ++ os :=
    congrArg (s.output ++ ·)
  have quietly : outs = [] → (s.commit b outs).output = s.output := fun ho =>
    (append ho).trans (List.append_nil _)
  cases i with
  | rst => exact absurd rfl hi
  | rd _ => exact ⟨_, append (outs_of_emit hb)⟩
  | encSimple _ _ | driveStatus | driveStatusCr | driveCondition | close | format | formatCr
  | erase => exact ⟨_, append (outs_of_emit hb)⟩
  | encDir _ | dirRef | dirFirst | dirNext | dirPrev | dirEnd =>
    obtain ⟨-, ⟨f, ho⟩ | ⟨e, ho⟩⟩ := encodeDirectory_cases hb
    · exact .inl ⟨f, append ho⟩
    · exact .inr ⟨e, append ho⟩
  | rxEnd =>
    obtain ⟨-, r, ho⟩ := endBuffer_cases hb
    exact ⟨r, append ho⟩
  | rspReadFileMore _ _ _ | rspDirectoryMore _ _ _ | rspGeneric12 _ _ _
  | rspDriveCondition _ _ _ =>
    obtain ⟨-, -, -, r, ho⟩ := deliverBuffer_cases hb
    exact ⟨r, append ho⟩
  | setPre _ | csClr | csPut _ | nmClr => exact quietly (outs_of_quiet hb)
  | nmPut _ => exact quietly (nmPut_cases hb).1
  | rx _ => exact quietly (receiveByte_cases hb).1

/-! ### The canonical form of the buffers (R60, R61) -/

/-- What an operation may write keeps both buffers canonical: the stores are those of `RX` and `NM_PUT`. -/
theorem Writes.keeps_wf {b b' : Block} {i : Instr} (h : Writes b i b')
    (hd : Memory.wf 255 b.dbuf) (hn : Memory.wf 24 b.nbuf) :
    Memory.wf 255 b'.dbuf ∧ Memory.wf 24 b'.nbuf := by
  cases h with
  | nmPutStore v hlt => exact ⟨hd, Memory.write_wf v hn hlt⟩
  | rx hr =>
    obtain ⟨-, -, -, hnbuf, -⟩ := receive_frame hr
    exact ⟨receive_wf hr hd, hnbuf ▸ hn⟩
  | response hr =>
    obtain ⟨-, -, -, hnbuf⟩ := receiveAll_frame hr
    have hdbuf := receiveAll_wf hr hd
    exact ⟨hdbuf, hnbuf ▸ hn⟩
  | nothing | rst | setPre | csClr | csPut | nmClr | nmPutOverflow | rxEnd => exact ⟨hd, hn⟩

/-- Settles O51: an idle step leaves the buffers, and an event writes them as `Writes` says. -/
theorem stepKeepsBuffersCanonical : Obligations.StepKeepsBuffersCanonical := by
  intro s t hd hn h
  obtain rfl | ⟨i, rest, u, -, hex, rfl⟩ := step_eq_next h
  · exact ⟨hd, hn⟩
  · exact (exec_writes hex).keeps_wf hd hn

/-! ### Where a buffer access stops the machine (R61, R43) -/

/-- Arm `DATA` with `CNT` past the last index of `DBUF` (log entry 6). -/
theorem rxData_of_full {b : Block} (v : Byte) (h : b.cnt = 255) :
    rxData v b = .error (.noEntry .dbuf 255) := by
  have hi : b.dataIndex = 255 := congrArg BitVec.toNat h
  simp [rxData, Block.writeEntry, hi, bufferSize, Config.dbufN]

/-- `RX_END` where a data byte has never been written (log entry 5). -/
theorem endBuffer_of_not_held {b : Block} (h : b.dataHeld = none) :
    ∃ a, a < b.cnt.toNat ∧ b.dbuf.read a = none ∧ endBuffer b = .error (.noValue .dbuf a) := by
  have hsize : 0 + b.cnt.toNat ≤ bufferSize .dbuf := by
    have := b.cnt.isLt
    simp only [bufferSize, Config.dbufN]
    omega
  obtain ⟨a, -, ha, hread, hr⟩ := Block.readEntries_of_firstFrom_none (k := .dbuf) hsize h
  exact ⟨a, by omega, hread, by simp only [endBuffer, hr]⟩

/-- `ENC_DIR` with legal operands where a filename byte has never been written (log entry 5). -/
theorem encodeDirectory_of_not_held {b : Block} {sf : Byte} (hn : b.nlen.toNat ≤ 24)
    (hsf : sf.toNat ≤ 4) (h : b.nameHeld = none) :
    ∃ a, a < b.nlen.toNat ∧ b.nbuf.read a = none ∧
      encodeDirectory sf b = .error (.noValue .nbuf a) := by
  have hnovf : b.novf = false := by
    rw [Block.novf_eq, decide_eq_false_iff_not]
    omega
  have hform : ¬ sf > lastSearchForm := Nat.not_lt.mpr hsf
  have hsize : 0 + b.nlen.toNat ≤ bufferSize .nbuf := by
    simp only [bufferSize, Config.nbufN]
    omega
  rw [Block.nameHeld, Nat.min_eq_left hn] at h
  obtain ⟨a, -, ha, hread, hr⟩ := Block.readEntries_of_firstFrom_none (k := .nbuf) hsize h
  exact ⟨a, by omega, hread, by simp [encodeDirectory, hnovf, hform, hr]⟩

/-- Settles O28: the faults of the block's operations are those of the machine. -/
theorem unheldEntriesFault : Obligations.UnheldEntriesFault := by
  refine ⟨fun v s hl hp hc => ?_, fun s hl hd => ?_, fun sf s hl hn hsf hh => ?_⟩
  · exact State.perform_fault (op := receiveByte v) hl
      (by simp only [receiveByte, receive, hp, rxData_of_full v hc])
  · obtain ⟨a, ha, hread, hop⟩ := endBuffer_of_not_held hd
    exact ⟨a, ha, hread, State.perform_fault hl hop⟩
  · obtain ⟨a, ha, hread, hop⟩ := encodeDirectory_of_not_held hn hsf hh
    exact ⟨a, ha, hread, State.perform_fault hl hop⟩

/-! ### Operations of different classes (R70) -/

/-- `b` with the registers and the buffer of one class's unit as `src` has them (R20, R70): `ACC` for the
checksum port, `NLEN` and `NBUF` for the encoder, all others for the parser. -/
def OpClass.put (c : OpClass) (src b : Block) : Block :=
  match c with
  | .cs => { b with acc := src.acc }
  | .en => { b with nlen := src.nlen, nbuf := src.nbuf }
  | .rxp => src.withOthers b.acc b.nlen b.nbuf

/-- Writing two different units, in either order. -/
theorem OpClass.put_comm {c d : OpClass} (h : c ≠ d) (x y b : Block) :
    c.put x (d.put y b) = d.put y (c.put x b) := by
  cases c with
  | cs => cases d with
    | cs => exact absurd rfl h
    | en | rxp => rfl
  | en => cases d with
    | en => exact absurd rfl h
    | cs | rxp => rfl
  | rxp => cases d with
    | rxp => exact absurd rfl h
    | cs | en => rfl

/-- A unit as it stands is its own value. -/
theorem OpClass.put_self (c : OpClass) (b : Block) : c.put b b = b := by
  cases c <;> rfl

/-- An operation of a class depends on its own unit and writes its own unit. -/
theorem blockOp_local {i : Instr} {c : OpClass} {b : Block} (hb : b.Inv) (h : opClass i = some c) :
    ∃ src outs, ∀ b', c.put b b' = b' → blockOp i b' = .ok (c.put src b', outs) := by
  cases c with
  | cs =>
    obtain ⟨acc, outs, hop⟩ := blockOp_cs b h
    exact ⟨{ b with acc := acc }, outs, fun b' he => hop b' (congrArg Block.acc he).symm⟩
  | en =>
    obtain ⟨nlen, nbuf, outs, hop⟩ := blockOp_en hb h
    exact ⟨{ b with nlen := nlen, nbuf := nbuf }, outs, fun b' he =>
      hop b' (congrArg Block.nlen he).symm (congrArg Block.nbuf he).symm⟩
  | rxp =>
    obtain ⟨src, outs, hop⟩ := blockOp_rxp hb h
    refine ⟨src, outs, fun b' he => ?_⟩
    have hop' := hop b'.acc b'.nlen b'.nbuf
    rwa [show b.withOthers b'.acc b'.nlen b'.nbuf = b' from he] at hop'

/-- `i` and `j` answer an effect in either order on the block, the same block after both and each the same
outputs. -/
def OpsCommute (i j : Instr) (b : Block) : Prop :=
  ∃ bi bj both oi oj,
    blockOp i b = .ok (bi, oi) ∧ blockOp j bi = .ok (both, oj) ∧
    blockOp j b = .ok (bj, oj) ∧ blockOp i bj = .ok (both, oi)

/-- Operations of two different classes: each leaves the other's unit, so it answers the same after it. -/
theorem opsCommute_of_classes {i j : Instr} {c d : OpClass} {b : Block} (hb : b.Inv)
    (hi : opClass i = some c) (hj : opClass j = some d) (hcd : c ≠ d) : OpsCommute i j b := by
  obtain ⟨x, oi, hopi⟩ := blockOp_local hb hi
  obtain ⟨y, oj, hopj⟩ := blockOp_local hb hj
  have keeps_d : d.put b (c.put x b) = c.put x b := by rw [OpClass.put_comm hcd.symm, d.put_self]
  have keeps_c : c.put b (d.put y b) = d.put y b := by rw [OpClass.put_comm hcd, c.put_self]
  refine ⟨c.put x b, d.put y b, d.put y (c.put x b), oi, oj, hopi b (c.put_self b),
    hopj _ keeps_d, hopj b (d.put_self b), ?_⟩
  rw [hopi _ keeps_c, OpClass.put_comm hcd]

/-- `RD(STAT)` writes nothing, and no bit of `STAT` is of the checksum port (R35, R70). -/
theorem opsCommute_readStat_cs {j : Instr} (b : Block) (hj : opClass j = some .cs) :
    OpsCommute (.rd .stat) j b := by
  obtain ⟨acc, oj, hopj⟩ := blockOp_cs b hj
  exact ⟨b, { b with acc := acc }, { b with acc := acc }, [.rdval b.stat], oj,
    rfl, hopj b rfl, hopj b rfl, rfl⟩

/-- An operation whose effect is known, on a machine that has been reset. -/
theorem exec_of_blockOp {i : Instr} {s : State} {b : Block} {outs : List OutEvent}
    (hl : s.launched = true) (h : blockOp i s.block = .ok (b, outs)) :
    exec i s = .next (s.commit b outs) := by
  rw [exec_eq_perform_of_launched i hl, State.perform_ok hl h]

/-- Settles O52: the effects commute on the block, so the machine's operations do. -/
theorem operationClassesCommute : Obligations.OperationClassesCommute := by
  intro i j s hs hclass
  obtain ⟨hl, hb⟩ := hs
  have hcomm : OpsCommute i j s.block := by
    obtain ⟨c, d, hi, hj, hcd⟩ | ⟨rfl, hj⟩ := hclass
    · exact opsCommute_of_classes hb hi hj hcd
    · exact opsCommute_readStat_cs s.block hj
  obtain ⟨bi, bj, both, oi, oj, hi, hij, hj, hji⟩ := hcomm
  exact ⟨s.commit bi oi, (s.commit bi oi).commit both oj, s.commit bj oj,
    (s.commit bj oj).commit both oi, oi, oj,
    exec_of_blockOp hl hi, exec_of_blockOp hl hij, exec_of_blockOp hl hj, exec_of_blockOp hl hji,
    rfl, rfl, rfl, rfl, rfl⟩

/-! ### Steps over presented events (R69, R73) -/

/-- A step with an event presented is `exec` of it, recorded. -/
theorem step_of_presented {i : Instr} {rest : List Instr} {s : State} (h : s.input = i :: rest) :
    step s = recordEvent i (exec i { s with input := rest, output := [] }) := by
  simp only [step, nextEvent, h]

/-- Settles O53: `recordEvent` on each of the three outcomes of `exec`. -/
theorem stepRunsPresentedEvent : Obligations.StepRunsPresentedEvent := by
  intro i rest s h
  rw [step_of_presented h]
  cases exec i { s with input := rest, output := [] } <;> rfl

/-- One step of a run, then the others. -/
theorem core_run_succ {m m' : State} (n : Nat) (h : step m = .next m') :
    core.run (n + 1) m = core.run n m' := by
  have hstep : core.step m = .next m' := h
  simp only [Host.Core.run, hstep]

/-- Where `exec` of an event answers a next state, a step of a machine with the same block and that event
presented answers the same block, with the outputs in the observation: an operation reads only the block
and whether it has been reset. -/
theorem step_of_exec {i : Instr} {rest : List Instr} {s s' m : State} (hex : exec i s = .next s')
    (hblock : m.block = s.block) (hlaunched : m.launched = s.launched)
    (hinput : m.input = i :: rest) :
    ∃ m' outs, step m = .next m' ∧
      m'.block = s'.block ∧ m'.launched = s'.launched ∧ m'.input = rest ∧
      s'.output = s.output ++ outs ∧ m'.observation = m.observation ++ outs := by
  obtain ⟨outs, hout, -, -, htransport⟩ := exec_transport hex
  have hstep := step_of_presented hinput
  rw [htransport { m with input := rest, output := [] } hblock hlaunched] at hstep
  exact ⟨_, outs, hstep, rfl, rfl, rfl, hout, by simp [State.observation]⟩

/-- A machine with the block of `s` and a trace presented runs the trace as `s` does. -/
theorem core_run_of_runTrace (ops : List Instr) :
    ∀ {s t m : State}, runTrace ops s = .next t →
      m.block = s.block → m.launched = s.launched → m.input = ops →
      ∃ u outs, core.run ops.length m = .next u ∧
        u.block = t.block ∧ u.launched = t.launched ∧ u.input = [] ∧
        t.output = s.output ++ outs ∧ u.observation = m.observation ++ outs := by
  induction ops with
  | nil =>
    intro s t m h hblock hlaunched hinput
    injection h with h
    subst h
    exact ⟨m, [], rfl, hblock, hlaunched, hinput, (List.append_nil _).symm,
      (List.append_nil _).symm⟩
  | cons i is ih =>
    intro s t m h hblock hlaunched hinput
    cases hex : exec i s with
    | fault f => simp [runTrace, hex] at h
    | refused r => simp [runTrace, hex] at h
    | next s' =>
      simp only [runTrace, hex] at h
      obtain ⟨m', outs, hstep, hblock', hlaunched', hinput', hout, hobs⟩ :=
        step_of_exec hex hblock hlaunched hinput
      obtain ⟨u, outs', hrun, hub, hul, hui, hout', hobs'⟩ := ih h hblock' hlaunched' hinput'
      refine ⟨u, outs ++ outs', (core_run_succ is.length hstep).trans hrun, hub, hul, hui, ?_, ?_⟩
      · rw [hout', hout, List.append_assoc]
      · rw [hobs', hobs, List.append_assoc]

/-- Settles O56, for the machine itself with the trace presented. -/
theorem stepsFoldPresentedEvents : Obligations.StepsFoldPresentedEvents :=
  fun ops _ _ h => core_run_of_runTrace ops h rfl rfl rfl

end Sys2Proof.Machine
end

section
/-! PROOFS. The frames of the table (spec/30_encoding.md R86 to R101): what a row and a decoded frame are,
said once (`RowSort`, `decode_ok_cases`), decode after encode and encode after decode, and that rows of one
width exclude each other. -/

namespace Sys2Proof

/-! ### What a row stands for -/

/-- What a row of the table is: a constant row with the bytes its instruction encodes to, a directory row
of a search form, or the row of a response kind. `rowSort_of_mem` ties it to `frameRows`. -/
inductive RowSort : FrameRow → Prop where
  | cmd0 {i : Instr} {t k : Byte} (hform : i.searchForm = none)
      (henc : ∀ name, encode i name = some [0x5A, 0x5A, t, 0x00, k]) : RowSort (cmd0Row i t k)
  | cmd0t {i : Instr} {t k : Byte} (hform : i.searchForm = none)
      (henc : ∀ name, encode i name = some [0x5A, 0x5A, t, 0x00, k, 0x0D]) :
      RowSort (cmd0tRow i t k)
  | cmddir {i : Instr} {sf : SearchForm} (hform : i.searchForm = some sf) :
      RowSort (cmddirRow i sf.code)
  | rsp (k : Kind) : RowSort (rspRow k (drom k))

theorem rowSort_of_mem : ∀ r ∈ frameRows, RowSort r := by
  simp only [frameRows, List.forall_mem_append, List.forall_mem_cons]
  have none_left : ∀ r ∈ ([] : List FrameRow), RowSort r := fun _ h => absurd h List.not_mem_nil
  exact ⟨⟨⟨.cmd0t rfl fun _ => rfl, .cmd0t rfl fun _ => rfl, .cmd0 rfl fun _ => rfl,
      .cmd0 rfl fun _ => rfl, .cmd0 rfl fun _ => rfl, .cmd0 rfl fun _ => rfl,
      .cmd0 rfl fun _ => rfl, none_left⟩,
    .cmddir (sf := .ref) rfl, .cmddir (sf := .first) rfl, .cmddir (sf := .next) rfl,
      .cmddir (sf := .prev) rfl, .cmddir (sf := .endRef) rfl, none_left⟩,
    .rsp .readFileMore, .rsp .directoryMore, .rsp .generic12, .rsp .driveCondition, none_left⟩

/-! ### The encoder, by the sort of the row -/

/-- A directory row is encoded by its search form (R88, R89). -/
theorem encode_of_searchForm {i : Instr} {sf : SearchForm} (h : i.searchForm = some sf)
    (name : List Byte) : encode i name = encodeDir sf.code name := by
  cases i <;> cases h <;> rfl

/-- A directory frame is its constant bytes, the filename field and the checksum (R85, R88). -/
theorem encodeDir_of_le (sf : Byte) {name : List Byte} (h : name.length ≤ 24) :
    encodeDir sf name = some ([0x5A, 0x5A, 0x00, 0x1A] ++ padName name ++ [0x46, sf] ++
      [checksum (directoryBody sf name)]) := by
  have hbody : [0x00, 0x1A] ++ padName name ++ [0x46, sf] = directoryBody sf name := by
    rw [List.append_assoc]; rfl
  rw [encodeDir, if_pos h, hbody]

/-- A filename and its padded field have the same frame (R90). -/
theorem directoryBody_padName (sf : Byte) {name : List Byte} (h : name.length ≤ 24) :
    directoryBody sf (padName name) = directoryBody sf name := by
  rw [directoryBody, padName_full (padName_length h), directoryBody]

@[simp] theorem encode_rspInstr (k : Kind) (len : Byte) (data : List Byte) (cks : Byte)
    (name : List Byte) :
    encode (rspInstr k len data cks) name = some (encodeRsp (drom k) len data cks) := by
  cases k <;> rfl

@[simp] theorem rspInstr_searchForm (k : Kind) (len : Byte) (data : List Byte) (cks : Byte) :
    (rspInstr k len data cks).searchForm = none := by
  cases k <;> rfl

@[simp] theorem rspInstr_wellFormed (k : Kind) (len : Byte) (data : List Byte) (cks : Byte) :
    (rspInstr k len data cks).wellFormed = true ↔ data.length = len.toNat := by
  cases k <;> exact beq_iff_eq

/-! ### What the bytes of a covering row are -/

/-- What a row with a constant pattern covers begins with the pattern (R101). -/
theorem eq_append_of_const_covers {p f : List Byte}
    (h : matchesBytes p (List.replicate p.length 0xFF) f = true) : ∃ tl, f = p ++ tl := by
  obtain ⟨tl, hf, -⟩ := matchesBytes_const_inv p [] [] f (by simpa using h)
  exact ⟨tl, hf⟩

/-- What a directory row covers is a frame of its search form (R88, R101). -/
theorem eq_directory_of_covers {i : Instr} {sf : Byte} {f : List Byte}
    (h : (cmddirRow i sf).covers f = true) :
    ∃ v c tl, v.length = 24 ∧ f = [0x5A, 0x5A, 0x00, 0x1A] ++ v ++ [0x46, sf] ++ [c] ++ tl := by
  rw [FrameRow.covers, cmddirRow, List.append_assoc, List.append_assoc] at h
  obtain ⟨f1, rfl, h1⟩ := matchesBytes_const_inv [0x5A, 0x5A, 0x00, 0x1A] _ _ f h
  obtain ⟨v, f2, rfl, hv, h2⟩ := matchesBytes_free_inv 24 f1 _ _ h1
  obtain ⟨f3, rfl, h3⟩ := matchesBytes_const_inv [0x46, sf] [0] [0] f2 h2
  cases f3 with
  | nil => cases h3
  | cons c tl => exact ⟨v, c, tl, hv, by simp⟩

/-! ### What a decoded frame is -/

/-- What the decoder reads: the bytes an instruction without a filename encodes to, or a directory frame
with its 24 filename bytes and whatever checksum byte; then the rest (R86 to R92, R97). -/
theorem decode_ok_cases {f : List Byte} {d : Decoded} (h : decode f = .ok d) :
    (d.instr.searchForm = none ∧
      ∃ frame, (∀ name, encode d.instr name = some frame) ∧ f = frame ++ d.rest) ∨
    (∃ sf, d.instr.searchForm = some sf ∧ d.name.length = 24 ∧
      f = [0x5A, 0x5A, 0x00, 0x1A] ++ d.name ++ [0x46, sf.code] ++ [d.cks] ++ d.rest) := by
  obtain ⟨r, hr, hcov, hdec⟩ := decode_cases h
  cases rowSort_of_mem r hr with
  | cmd0 hform henc | cmd0t hform henc =>
    obtain ⟨tl, rfl⟩ := eq_append_of_const_covers hcov
    injection hdec with hdec
    subst hdec
    exact .inl ⟨hform, _, henc, rfl⟩
  | cmddir hform =>
    obtain ⟨v, c, tl, hv, rfl⟩ := eq_directory_of_covers hcov
    rw [decodeRow_cmddir _ _ c v tl hv] at hdec
    injection hdec with hdec
    subst hdec
    exact .inr ⟨_, hform, hv, rfl⟩
  | rsp k =>
    obtain ⟨b0, len, body, cks, rest, rfl, hdrop, rfl⟩ := decodeRsp_cases hdec
    obtain ⟨tl, htl⟩ := eq_append_of_const_covers (p := [drom k]) hcov
    obtain ⟨rfl, -⟩ := List.cons.inj htl
    refine .inl ⟨rspInstr_searchForm .., _, encode_rspInstr _ _ _ _, ?_⟩
    have hbody : body = body.take len.toNat ++ cks :: rest := by
      rw [← hdrop, List.take_append_drop]
    simp [encodeRsp, ← hbody]

/-- The instruction of a decoded frame has an encoding (R100). -/
theorem encode_isSome_of_decode {f : List Byte} {d : Decoded} (h : decode f = .ok d) :
    (encode d.instr []).isSome = true := by
  obtain ⟨-, frame, henc, -⟩ | ⟨sf, hform, -, -⟩ := decode_ok_cases h
  · rw [henc]; rfl
  · rw [encode_of_searchForm hform, encodeDir_of_le _ (name := []) (Nat.zero_le 24)]; rfl

/-- Settles O3: a directory frame whose checksum byte is right is its filename's, and every other frame
is its instruction's. -/
theorem encodeRestoresDecodedBytes : Obligations.EncodeRestoresDecodedBytes := by
  intro f d h hinst
  obtain ⟨-, frame, henc, hf⟩ | ⟨sf, hform, hname, hf⟩ := decode_ok_cases h
  · exact ⟨frame, henc d.name, hf⟩
  · have hcks : d.cks = checksum (directoryBody sf.code d.name) := by
      simpa [Decoded.isInstance, hform] using hinst
    refine ⟨_, (encode_of_searchForm hform _).trans (encodeDir_of_le _ (Nat.le_of_eq hname)), ?_⟩
    rw [hf, padName_full hname, ← hcks]

/-- Settles O5: a decoded instruction has an encoding, and the eleven operations have none. -/
theorem noBytesDecodeToAnOperation : Obligations.NoBytesDecodeToAnOperation := by
  intro f d h
  have hne : ∀ {j : Instr}, encode j [] = none → d.instr ≠ j := fun hj he => by
    have hsome := encode_isSome_of_decode h
    rw [he, hj] at hsome
    cases hsome
  refine ⟨?_, fun _ => hne rfl, fun _ => hne rfl, fun _ => hne rfl, fun _ => hne rfl,
    fun _ _ => hne rfl, fun _ => hne rfl, fun _ => hne rfl⟩
  simp [hne (j := .rst) rfl, hne (j := .csClr) rfl, hne (j := .nmClr) rfl, hne (j := .rxEnd) rfl]

/-! ### Decode after encode -/

/-- Decoding the frame of a directory row (R88, R90). -/
theorem decode_encodeDir {i : Instr} {sf : SearchForm} (hform : i.searchForm = some sf)
    {name frame : List Byte} (h : encodeDir sf.code name = some frame) (rest : List Byte) :
    decode (frame ++ rest) =
      .ok ⟨i, padName name, checksum (directoryBody sf.code (padName name)), rest⟩ := by
  by_cases hn : name.length ≤ 24
  · rw [encodeDir_of_le _ hn, Option.some.injEq] at h
    rw [← h, directoryBody_padName _ hn]
    exact decode_cmddir sf i hform _ _ rest (padName_length hn)
  · rw [encodeDir, if_neg hn] at h
    cases h

/-- The decoder reads the frame of `i` back, with whatever bytes after it. -/
def ReadsBack (i : Instr) (name frame rest : List Byte) : Prop :=
  ∃ d, decode (frame ++ rest) = .ok d ∧ d.instr = i ∧ d.rest = rest ∧ d.isInstance = true ∧
    d.name = (if i.searchForm.isSome then padName name else [])

/-- A directory frame is read back with its padded filename (R88, R90). -/
theorem readsBack_directory {i : Instr} {sf : SearchForm} (hform : i.searchForm = some sf)
    {name frame : List Byte} (henc : encode i name = some frame) (rest : List Byte) :
    ReadsBack i name frame rest := by
  rw [encode_of_searchForm hform] at henc
  exact ⟨_, decode_encodeDir hform henc rest, rfl, rfl, by simp [Decoded.isInstance, hform],
    by simp [hform]⟩

/-- A well-formed response frame is read back by its length byte (R92, R97). -/
theorem readsBack_response {k : Kind} {len cks : Byte} {data name frame : List Byte}
    (hwf : (rspInstr k len data cks).wellFormed = true)
    (henc : encode (rspInstr k len data cks) name = some frame) (rest : List Byte) :
    ReadsBack (rspInstr k len data cks) name frame rest := by
  rw [encode_rspInstr, Option.some.injEq] at henc
  subst henc
  exact ⟨_, decode_rsp k len data rest cks ((rspInstr_wellFormed ..).mp hwf), rfl, rfl,
    by simpa [Decoded.isInstance] using hwf, by simp⟩

/-- Settles O2, by the sort of the row: the constant rows byte by byte, where only the bytes after
`DRIVE_STATUS` and `FORMAT` matter (log entry 14); the directory rows; the response rows. -/
theorem decodeReadsEncodedFrame : Obligations.DecodeReadsEncodedFrame := by
  intro i name frame rest hwf henc htrail
  cases i with
  | rst | setPre _ | rd _ | csClr | csPut _ | nmClr | nmPut _ | encSimple _ _ | encDir _ | rx _
  | rxEnd => cases henc
  | driveStatus =>
    cases henc
    exact ⟨_, decode_cmd0 .driveStatus _ _ rest (htrail (.inl rfl)) (by decide), rfl, rfl, rfl, rfl⟩
  | format =>
    cases henc
    exact ⟨_, decode_cmd0 .format _ _ rest (htrail (.inr rfl)) (by decide), rfl, rfl, rfl, rfl⟩
  | driveStatusCr | driveCondition | close | formatCr | erase =>
    cases henc
    exact ⟨_, rfl, rfl, rfl, rfl, rfl⟩
  | dirRef | dirFirst | dirNext | dirPrev | dirEnd => exact readsBack_directory rfl henc rest
  | rspReadFileMore _ _ _ => exact readsBack_response (k := .readFileMore) hwf henc rest
  | rspDirectoryMore _ _ _ => exact readsBack_response (k := .directoryMore) hwf henc rest
  | rspGeneric12 _ _ _ => exact readsBack_response (k := .generic12) hwf henc rest
  | rspDriveCondition _ _ _ => exact readsBack_response (k := .driveCondition) hwf henc rest

/-! ### Rows of one width -/

/-- No byte is known to separate two rows: where both masks look, the patterns say the same (R101). -/
def patternsAgree : List Byte → List Byte → List Byte → List Byte → Bool
  | p :: ps, m :: ms, q :: qs, n :: ns => (p &&& n == q &&& m) && patternsAgree ps ms qs ns
  | _, _, _, _ => true

/-- Patterns that match the same bytes agree. -/
theorem patternsAgree_of_matches : ∀ {p m q n f : List Byte},
    matchesBytes p m f = true → matchesBytes q n f = true → patternsAgree p m q n = true
  | p :: ps, m :: ms, q :: qs, n :: ns, b :: bs, hp, hq => by
    simp only [matchesBytes, Bool.and_eq_true, beq_iff_eq] at hp hq
    obtain ⟨rfl, hps⟩ := hp
    obtain ⟨rfl, hqs⟩ := hq
    simp [patternsAgree, patternsAgree_of_matches hps hqs, BitVec.and_assoc, BitVec.and_comm m n]
  | [], _, _, _, _, _, _ | _ :: _, [], _, _, _, _, _ | _ :: _, _ :: _, [], _, _, _, _
  | _ :: _, _ :: _, _ :: _, [], _, _, _ => rfl
  | _ :: _, _ :: _, _ :: _, _ :: _, [], hp, _ => nomatch hp

/-- The table: two different rows of one width have a byte that both fix, differently (R101). -/
theorem eq_of_patternsAgree : ∀ r ∈ frameRows, ∀ q ∈ frameRows,
    r.pattern.length = q.pattern.length →
    patternsAgree r.pattern r.mask q.pattern q.mask = true → r = q := by
  decide

/-- Settles O4: rows that cover the same bytes agree, and different rows of one width do not. -/
theorem rowsOfOneWidthDoNotOverlap : Obligations.RowsOfOneWidthDoNotOverlap :=
  fun r q _ hr hq hlen hrf hqf =>
    eq_of_patternsAgree r hr q hq hlen (patternsAgree_of_matches hrf hqf)

/-- Settles O1: the decoder run on each of the words. -/
theorem sampleWordsDecode : Obligations.SampleWordsDecode :=
  ⟨rfl, rfl, rfl, rfl, rfl, rfl, rfl, rfl⟩

end Sys2Proof
end

section
/-! PROOFS. The presented frame and the response rows as operations (spec/30_encoding.md R99, R101;
spec/43_dispatch.md R202 to R205): the filename a directory word loads, and the delivery of a response
frame as one buffer. -/

namespace Sys2Proof.Machine

/-! ### The step after a table word (log entries 2 and 11) -/

/-- Writing bytes right after a run of entries makes the run longer by them (R144). -/
theorem Memory.firstFrom_write_all (vs : List Byte) :
    ∀ {m : Memory} {n : Nat} {held : List Byte}, m.firstFrom 0 n = some held →
      Memory.firstFrom ((vs.zipIdx n).foldl (fun m e => m.write e.2 e.1) m) 0 (n + vs.length) =
        some (held ++ vs) := by
  induction vs with
  | nil =>
    intro m n held h
    rw [List.append_nil]
    exact h
  | cons v vs ih =>
    intro m n held h
    have hwrite := Memory.firstFrom_write v h
    rw [Nat.zero_add] at hwrite
    have hrest := ih hwrite
    rw [List.append_assoc, Nat.add_assoc, Nat.add_comm 1] at hrest
    exact hrest

/-- A filename that fills the buffer is the filename held once it is loaded. -/
theorem loadName_nameHeld {name : List Byte} (h : name.length = 24) (b : Block) :
    (loadName name b).nameHeld = some name := by
  have hnlen : min (loadName name b).nlen.toNat 24 = name.length := by simp [h]
  rw [Block.nameHeld, hnlen]
  have hload := Memory.firstFrom_write_all name (m := b.nbuf) (n := 0) (held := []) rfl
  rw [Nat.zero_add] at hload
  exact hload

/-- Presenting puts the decoded instruction first and leaves everything but the block as it was. -/
theorem present_eq (d : Decoded) (s : State) :
    present d s = { s with input := d.instr :: s.input, block := (present d s).block } := by
  unfold present
  split <;> rfl

/-- Settles O54: the presented instruction is the next event, on the block `present` leaves. -/
theorem fetchWordRunsDecodedInstruction : Obligations.FetchWordRunsDecodedInstruction := by
  intro nbits w d s h
  have hpresent : s.withFetchWord nbits w = present d s := by
    simp only [State.withFetchWord, presentBytes, h]
  refine ⟨(present d s).block, fun hform => ?_, fun hform => ?_, ?_, ?_⟩
  · simp only [present, hform]
  · obtain ⟨hnone, -⟩ | ⟨sf, hsf, hname, -⟩ := decode_ok_cases h
    · exact absurd hnone hform
    · have hblock : (present d s).block = loadName d.name s.block := by simp only [present, hsf]
      rw [hblock]
      refine ⟨?_, loadName_nameHeld hname s.block⟩
      simp [loadName, hname]
  · simp only [decodeTableWord, h]
  · rw [hpresent, present_eq]
    exact stepRunsPresentedEvent d.instr s.input _ rfl

/-! ### Receiving bytes within a buffer -/

/-- What receiving bytes leaves of the buffer in progress: `CNT` only grows, the entries of `DBUF` from it
on are as they were, and byte 0 stays in `CODE` (R36, R33). -/
structure Block.Continues (b b' : Block) : Prop where
  cnt_le : b.cnt.toNat ≤ b'.cnt.toNat
  dbuf_above : ∀ a, b'.cnt.toNat ≤ a → b'.dbuf.read a = b.dbuf.read a
  code_kept : b.got = true → b'.got = true ∧ b'.code = b.code

theorem Block.Continues.refl (b : Block) : b.Continues b :=
  ⟨Nat.le_refl _, fun _ _ => rfl, fun hg => ⟨hg, rfl⟩⟩

theorem Block.Continues.trans {a b c : Block} (h : a.Continues b) (k : b.Continues c) :
    a.Continues c where
  cnt_le := Nat.le_trans h.cnt_le k.cnt_le
  dbuf_above i hi := (k.dbuf_above i hi).trans (h.dbuf_above i (Nat.le_trans k.cnt_le hi))
  code_kept hg := by
    obtain ⟨hgb, hcb⟩ := h.code_kept hg
    obtain ⟨hgc, hcc⟩ := k.code_kept hgb
    exact ⟨hgc, hcc.trans hcb⟩

/-- A byte that is not stored continues the buffer. -/
theorem Block.Continues.of_kept {b b' : Block} (hcnt : b'.cnt = b.cnt) (hdbuf : b'.dbuf = b.dbuf)
    (hcode : b.got = true → b'.got = true ∧ b'.code = b.code) : b.Continues b' :=
  ⟨hcnt ▸ Nat.le_refl _, fun _ _ => by rw [hdbuf], hcode⟩

/-- Arms `HUNT` and `PRE2` write `PHASE` and `SKIP` alone (R172, R173). -/
theorem Block.Continues.of_phase_skip (b : Block) (p : Phase) (k : Bool) :
    b.Continues { b with phase := p, skip := k } :=
  .of_kept rfl rfl fun hg => ⟨hg, rfl⟩

/-- Arm `DATA` stores at `CNT` and counts (R176). -/
theorem rxData_continues {v : Byte} {b b' : Block} (hcnt : b.cnt.toNat < 255)
    (hr : rxData v b = .ok b') : b.Continues b' := by
  rw [rxData_of_lt v hcnt, Except.ok.injEq] at hr
  subst hr
  have hcnt' : (b.cnt + 1).toNat = b.cnt.toNat + 1 := by simp [BitVec.toNat_add]; omega
  refine ⟨?_, fun a ha => ?_, fun hg => ⟨hg, rfl⟩⟩
  · show b.cnt.toNat ≤ (b.cnt + 1).toNat
    omega
  · replace ha : (b.cnt + 1).toNat ≤ a := ha
    show Memory.read (b.dbuf.write b.cnt.toNat v) a = _
    rw [Memory.read_write, if_neg (by omega)]

/-- One `RX` continues the buffer: the first byte finds no byte 0, only arm `DATA` stores, and arm `LEN`
finds `CNT` at 0 (R171 to R178, R44). -/
theorem receive_continues {v : Byte} {b b' : Block} (h : b.Inv) (hr : receive v b = .ok b') :
    b.Continues b' := by
  cases hp : b.phase <;> rw [receive, hp] at hr
  case data =>
    obtain ⟨-, hlt⟩ := h.inData hp
    exact rxData_continues (by have := b.len.isLt; omega) hr
  all_goals
    injection hr with hr
    subst hr
  case idle =>
    have hgot : b.got ≠ true := by simp [h.gotIffBusy.mp hp]
    split
    · unfold rxHunt
      split <;> exact .of_kept rfl rfl fun hg => absurd hg hgot
    · exact .of_kept rfl rfl fun hg => absurd hg hgot
  case hunt => unfold rxHunt; split <;> exact .of_phase_skip ..
  case pre2 => unfold rxPre2; split <;> exact .of_phase_skip ..
  case len =>
    obtain ⟨-, hcnt⟩ := h.atLength hp
    exact .of_kept hcnt.symm rfl fun hg => ⟨hg, rfl⟩
  case type | cks | done => exact .of_kept rfl rfl fun hg => ⟨hg, rfl⟩

/-- Receiving bytes continues the buffer. -/
theorem receiveAll_continues (vs : List Byte) :
    ∀ {b b' : Block}, b.Inv → receiveAll vs b = .ok b' → b.Continues b' := by
  induction vs with
  | nil =>
    intro b b' _ hr
    injection hr with hr
    exact hr ▸ .refl b
  | cons v vs ih =>
    intro b b' h hr
    obtain ⟨b1, h1, hi1⟩ := receive_inv v h
    rw [receiveAll, h1] at hr
    exact (receive_continues h h1).trans (ih hi1 hr)

/-! ### A response row (log entry 12) -/

/-- The operation of a response row is the delivery of its frame (R99). -/
theorem blockOp_rspInstr (k : Kind) (len : Byte) (data : List Byte) (cks : Byte) :
    blockOp (rspInstr k len data cks) = deliverBuffer (responseFrame k len data cks) := by
  cases k <;> rfl

/-- The response rows with their kinds are the instructions of the kinds (R202 to R205). -/
theorem eq_rspInstr_of_mem {k : Kind} {i : Instr} {len : Byte} {data : List Byte} {cks : Byte}
    (h : (k, i) ∈ [(Kind.readFileMore, Instr.rspReadFileMore len data cks),
      (.directoryMore, .rspDirectoryMore len data cks), (.generic12, .rspGeneric12 len data cks),
      (.driveCondition, .rspDriveCondition len data cks)]) : i = rspInstr k len data cks := by
  simp only [List.mem_cons, Prod.mk.injEq, List.not_mem_nil, or_false] at h
  obtain ⟨rfl, rfl⟩ | ⟨rfl, rfl⟩ | ⟨rfl, rfl⟩ | ⟨rfl, rfl⟩ := h <;> rfl

/-- `RX_END` leaves the reset values in PKT and DSP and the other units as they were (R179, R43). -/
theorem Block.clearParser_eq (b : Block) :
    b.clearParser = { Block.reset with
      acc := b.acc, ctrl := b.ctrl, nlen := b.nlen, nbuf := b.nbuf, dbuf := b.dbuf } := rfl

/-- The entries of `DBUF` after a buffer: the data bytes held, and above them what was there before. -/
theorem Block.Continues.dbuf_read {b b' : Block} (h : b.Continues b') {data : List Byte}
    (hd : b'.dataHeld = some data) (a : Nat) :
    b'.dbuf.read a = if a < data.length then data[a]? else b.dbuf.read a := by
  have hlen : data.length = b'.cnt.toNat := Memory.firstFrom_length hd
  split
  next hlt => simpa using Memory.read_of_firstFrom hd a (hlen ▸ hlt)
  next hge => exact h.dbuf_above a (by omega)

/-- Settles O38: the block after the frame's bytes continues the buffer in progress; the record is its
`Block.result`, which from `IDLE` is that of the whole buffer (`receiveAll_buffer`). -/
theorem responseRowsDeliverFrame : Obligations.ResponseRowsDeliverFrame := by
  intro k i len data cks s hs hi
  obtain ⟨hl, hb⟩ := hs
  obtain rfl := eq_rspInstr_of_mem hi
  obtain ⟨b, hrun, hbinv⟩ := receiveAll_inv (responseFrame k len data cks) hb
  obtain ⟨held, hheld, -⟩ := hbinv.sumHeld
  obtain ⟨hacc, hctrl, hnlen, hnbuf⟩ := receiveAll_frame hrun
  have hcont := receiveAll_continues _ hb hrun
  have hop : blockOp (rspInstr k len data cks) s.block =
      .ok (b.clearParser, [.res (b.result held)]) := by
    simp only [blockOp_rspInstr, deliverBuffer, hrun, endBuffer_of_dataHeld hheld, emit]
  refine ⟨_, b.result held, exec_of_blockOp hl hop, ?_, hcont.dbuf_read hheld, fun hidle => ?_,
    fun hbusy => ?_⟩
  · rw [← hacc, ← hctrl, ← hnlen, ← hnbuf]
    rfl
  · obtain ⟨b', held', hrun', -, hheld', -, hres⟩ := receiveAll_buffer _ hb hidle
    obtain rfl := Except.ok.inj (hrun.symm.trans hrun')
    obtain rfl := Option.some.inj (hheld.symm.trans hheld')
    exact hres
  · obtain ⟨hgot, hcode⟩ := hcont.code_kept (hb.got_of_busy hbusy)
    show b.classification = _
    rw [Block.classification, if_pos hgot, hcode]

theorem frameResult_cls (cls : Classification) (pm skip : Bool) (frame : List Byte) :
    (frameResult cls pm skip frame).cls = cls := by
  unfold frameResult
  split
  · rfl
  · rfl
  · split <;> rfl

/-- In either mode the record classifies byte 0 of the buffer (R206, R210). -/
theorem bufferResult_cls (pre : Bool) (v : Byte) (vs : List Byte) :
    (bufferResult pre (v :: vs)).cls = classifyCode v := by
  cases pre with
  | false => exact frameResult_cls ..
  | true =>
    show (formatFResult (v :: vs)).cls = _
    unfold formatFResult
    split
    · rfl
    · exact frameResult_cls ..

/-- Each kind's code is its entry of the dispatch table (R200). -/
theorem dispatch_drom (k : Kind) : dispatch (drom k) = .hit k := by
  cases k <;> decide

/-- The record of a frame whose length byte counts its data, delivered in format RSP (R182 (c)). -/
theorem rspResult_of_frame (t len cks : Byte) (data : List Byte) (h : data.length = len.toNat) :
    rspResult (t :: len :: (data ++ [cks])) =
      { cls := classifyCode t
        prs := if cks = checksum (t :: len :: data) then .frameOK else .checksumMismatch
        pm := false, phase := .done, type := t, len := len, cnt := len, data := data, rck := cks
        xck := checksum (t :: len :: data), kind := dispatch t, skip := false, trail := false } := by
  have hdrop : (data ++ [cks]).drop len.toNat = [cks] := by simp [← h]
  have htake : (data ++ [cks]).take len.toNat = data := by simp [← h]
  simp only [rspResult, frameResult, hdrop, htake, classify, List.isEmpty_nil, Bool.not_true]

/-- Settles O39: from `IDLE` the row's record is that of its frame's bytes (`responseRowsDeliverFrame`). -/
theorem responseRowsAreKnown : Obligations.ResponseRowsAreKnown := by
  intro k i len data cks s hs hidle hwf hi
  obtain ⟨t, r, hexec, ht, -, hr, -⟩ := responseRowsDeliverFrame k i len data cks s hs hi
  obtain rfl := eq_rspInstr_of_mem hi
  rw [rspInstr_wellFormed] at hwf
  refine ⟨t, r, hexec, by rw [ht], ?_, fun hpre => ?_⟩
  · rw [hr hidle, bufferResult_cls, classifyCode, dispatch_drom]
  · have hrec : r = rspResult (drom k :: len :: (data ++ [cks])) := by
      rw [hr hidle, hpre]
      rfl
    rw [hrec, rspResult_of_frame _ _ _ _ hwf]
    by_cases hcks : cks = checksum (drom k :: len :: data) <;> simp [hcks, dispatch_drom]

end Sys2Proof.Machine
end

section
/-! PROOFS. The checksum as a function (spec/40_checksum.md R120 to R129): a register that wraps gives the
sum modulo its size, and the arithmetic and structural laws follow from `checksum_toNat` and from the sum
modulo 256 being all that is seen. -/

namespace Sys2Proof

/-! ### A register that wraps (R121) -/

/-- One byte added to a register of any width. -/
theorem toNat_add_zeroExtend {w : Nat} (a : BitVec w) (v : Byte) :
    (a + v.zeroExtend w).toNat = (a.toNat + v.toNat) % 2 ^ w := by
  simp

/-- Bytes added to a register one after another wrap no differently than their sum does. -/
theorem toNat_foldl_add_zeroExtend {w : Nat} (bs : List Byte) (a : BitVec w) :
    (bs.foldl (fun (a : BitVec w) v => a + v.zeroExtend w) a).toNat =
      (a.toNat + byteSum bs) % 2 ^ w := by
  induction bs generalizing a with
  | nil => exact (Nat.mod_eq_of_lt a.isLt).symm
  | cons b bs ih =>
    rw [List.foldl_cons, ih, toNat_add_zeroExtend, Nat.mod_add_mod, Nat.add_assoc, byteSum_cons]

/-- Wrapping at 8 bits or more keeps the low 8 bits. -/
theorem mod_two_pow_mod_256 {w : Nat} (h : 8 ≤ w) (n : Nat) : n % 2 ^ w % 256 = n % 256 :=
  Nat.mod_mod_of_dvd n (Nat.pow_dvd_pow 2 h)

/-- Settles O6: the register holds the sum modulo `2 ^ w`, and `256` divides `2 ^ w`. -/
theorem checksumWidthIrrelevant : Obligations.ChecksumWidthIrrelevant := by
  intro w bs hw
  refine ⟨mod_two_pow_mod_256 hw _, ?_⟩
  rw [toNat_foldl_add_zeroExtend, mod_two_pow_mod_256 hw]
  simp [checksum, onesComplement]

/-! ### The arithmetic laws (R124) -/

/-- The verification law by the sum (R124 (c)). -/
theorem eq_checksum_iff_sum (bs : List Byte) (c : Byte) :
    c = checksum bs ↔ (byteSum bs + c.toNat) % 256 = 255 := by
  have hc := c.isLt
  rw [← BitVec.toNat_inj, checksum_toNat]
  omega

/-- The checksum is zero exactly where the sum is 255 modulo 256. -/
theorem checksum_eq_zero_iff (bs : List Byte) : checksum bs = 0x00 ↔ byteSum bs % 256 = 255 := by
  simpa using eq_comm.trans (eq_checksum_iff_sum bs 0x00)

/-- The verification law by the checksum of the whole (R124 (c)). -/
theorem eq_checksum_iff_checksum_append (bs : List Byte) (c : Byte) :
    c = checksum bs ↔ checksum (bs ++ [c]) = 0x00 := by
  rw [eq_checksum_iff_sum, checksum_eq_zero_iff, byteSum_append, byteSum_cons, byteSum_nil,
    Nat.add_zero]

/-- The checksum of one byte (R124 (d)). -/
theorem checksum_singleton (x : Byte) : checksum [x] = x ^^^ 0xFF#8 := by
  rw [checksum, onesComplement, byteSum_cons, byteSum_nil, Nat.add_zero, Nat.mod_eq_of_lt x.isLt,
    BitVec.ofNat_toNat, BitVec.setWidth_eq]

/-- The checksum of `k` bytes `FF` (R124 (f)). -/
theorem checksum_replicate_ff_toNat {k : Nat} (hk : 1 ≤ k) :
    (checksum (List.replicate k 0xFF)).toNat = (k - 1) % 256 := by
  have hff : (0xFF : Byte).toNat = 255 := rfl
  rw [checksum_toNat, byteSum_replicate, hff]
  omega

/-- Settles O7, law by law. -/
theorem checksumArithmeticLaws : Obligations.ChecksumArithmeticLaws :=
  ⟨xor_ff_toNat, checksum_toNat, fun bs => Nat.le_of_lt_succ (checksum bs).isLt,
    fun bs c => ⟨eq_checksum_iff_sum bs c, eq_checksum_iff_checksum_append bs c⟩,
    checksum_singleton, by decide, fun _ => checksum_replicate_ff_toNat⟩

/-! ### The structural laws (R129) -/

/-- Reordering keeps the sum. -/
theorem byteSum_perm {as bs : List Byte} (h : as.Perm bs) : byteSum as = byteSum bs := by
  induction h with
  | nil => rfl
  | cons b _ ih => rw [byteSum_cons, byteSum_cons, ih]
  | swap a b bs => exact Nat.add_left_comm _ _ _
  | trans _ _ ih₁ ih₂ => exact ih₁.trans ih₂

/-- The checksum of a concatenation (R129 (d)): `255 - checksum as` is the sum of `as` modulo 256. -/
theorem checksum_append (as bs : List Byte) : checksum (as ++ bs) =
    onesComplement (255 - (checksum as).toNat + byteSum bs) := by
  refine onesComplement_congr ?_
  rw [byteSum_append, checksum_toNat]
  omega

/-- Settles O8: equal sums, equal sums under reordering and under a zero byte, and the concatenation. -/
theorem checksumStructuralLaws : Obligations.ChecksumStructuralLaws :=
  ⟨fun _ _ => onesComplement_congr, fun _ _ h => congrArg onesComplement (byteSum_perm h),
    fun as bs => congrArg onesComplement (by simp), checksum_append⟩

end Sys2Proof
end

section
/-! PROOFS. The CS port (spec/40_checksum.md R125 to R128): what `CS_CLR` and `CS_PUT` write, that `ACC` holds
the sum of the bytes put along any trace, and that the other units do not depend on it. -/

namespace Sys2Proof.Machine

/-! ### The two operations (R125, R126) -/

/-- Settles O9: `CS_CLR` is a quiet operation of the block. -/
theorem csClrClearsOnlyAcc : Obligations.CsClrClearsOnlyAcc :=
  fun _ hl => State.perform_quiet (op := csClr) hl rfl

/-- Settles O10: `CS_PUT` is a quiet operation of the block, and its addition is that of R121. -/
theorem csPutAddsOnlyToAcc : Obligations.CsPutAddsOnlyToAcc :=
  fun v s hl => ⟨_, State.perform_quiet (op := csPut v) hl rfl,
    toNat_add_zeroExtend s.block.acc v, rfl⟩

/-! ### `ACC` along a trace (R128) -/

/-- `ACC` agrees with the sum of the bytes `held` as far as `CSUM` can see (R22, R121). -/
def Block.Accumulates (b : Block) (held : List Byte) : Prop :=
  b.acc.toNat % 256 = byteSum held % 256

/-- A block that has accumulated `held` reads its checksum as `CSUM`. -/
theorem Block.Accumulates.csum_eq {b : Block} {held : List Byte} (h : b.Accumulates held) :
    b.csum = checksum held :=
  onesComplement_congr h

/-- The bytes put by a trace, its first operation apart. -/
theorem bytesPut_cons (held : List Byte) (i : Instr) (is : List Instr) :
    bytesPut held (i :: is) = bytesPut (bytesPut held [i]) is := by
  cases i <;> rfl

/-- A row that writes nothing puts no byte and drops none. -/
theorem bytesPut_of_readsOnly {i : Instr} (held : List Byte) (h : readsOnly i = true) :
    bytesPut held [i] = held := by
  cases i with
  | rst | csClr | csPut => cases h
  | _ => rfl

/-- A response row puts no byte and drops none. -/
theorem bytesPut_rspInstr (held : List Byte) (k : Kind) (len : Byte) (data : List Byte) (cks : Byte) :
    bytesPut held [rspInstr k len data cks] = held := by
  cases k <;> rfl

/-- Every operation moves `ACC` as it moves the bytes put: its three writers one by one, every other
operation by leaving both. -/
theorem Writes.accumulates {b b' : Block} {i : Instr} {held : List Byte} (h : Writes b i b')
    (hb : b.Accumulates held) : b'.Accumulates (bytesPut held [i]) := by
  have of_kept : ∀ {c : Block} {j : Instr}, c.acc = b.acc → bytesPut held [j] = held →
      c.Accumulates (bytesPut held [j]) := by
    intro c j hacc hput
    rw [hput, Block.Accumulates, hacc]
    exact hb
  cases h with
  | rst | csClr => rfl
  | csPut v =>
    have hb' : b.acc.toNat % 256 = byteSum held % 256 := hb
    simp only [Block.Accumulates, bytesPut, byteSum_append, byteSum_cons, byteSum_nil,
      toNat_add_zeroExtend]
    omega
  | nothing hi => exact of_kept rfl (bytesPut_of_readsOnly held hi)
  | rx hr => exact of_kept (receive_frame hr).1 rfl
  | response hr => exact of_kept (receiveAll_frame hr).1 (bytesPut_rspInstr held _ _ _ _)
  | setPre | nmClr | nmPutStore | nmPutOverflow | rxEnd => exact of_kept rfl rfl

/-- A trace that completes, its first operation apart. -/
theorem runTrace_cons_eq_next {i : Instr} {is : List Instr} {s t : State}
    (h : runTrace (i :: is) s = .next t) : ∃ u, exec i s = .next u ∧ runTrace is u = .next t := by
  cases hex : exec i s with
  | next u => exact ⟨u, rfl, by simpa only [runTrace, hex] using h⟩
  | fault f => simp [runTrace, hex] at h
  | refused r => simp [runTrace, hex] at h

/-- Along a trace `ACC` accumulates the bytes put. -/
theorem runTrace_accumulates (ops : List Instr) :
    ∀ {s t : State} {held : List Byte}, runTrace ops s = .next t → s.block.Accumulates held →
      t.block.Accumulates (bytesPut held ops) := by
  induction ops with
  | nil =>
    intro s t held h hs
    injection h with h
    exact h ▸ hs
  | cons i is ih =>
    intro s t held h hs
    obtain ⟨u, hex, hrun⟩ := runTrace_cons_eq_next h
    rw [bytesPut_cons]
    exact ih hrun ((exec_writes hex).accumulates hs)

/-- After `CS_CLR` and any operations, `RD(CSUM)` emits the checksum of the bytes put. -/
theorem readCsum_after_csClr (ops : List Instr) {s : State} (hs : s.Inv) :
    ∃ t, runTrace (.csClr :: ops) s = .next t ∧
      exec (.rd .csum) t =
        .next { t with output := t.output ++ [.rdval (checksum (bytesPut [] ops))] } := by
  obtain ⟨hl, hb⟩ := hs
  obtain ⟨t, hrun, htl, -⟩ := runTrace_of_inv ops
    (s := { s with block := { s.block with acc := 0 } }) ⟨hl, hb.withAcc 0⟩
  have hsum : t.block.csum = checksum (bytesPut [] ops) :=
    (runTrace_accumulates ops (held := []) hrun rfl).csum_eq
  refine ⟨t, by simp only [runTrace, csClrClearsOnlyAcc s hl, hrun], ?_⟩
  rw [← hsum]
  exact State.perform_emit htl rfl

/-! ### The other units and `ACC` (R128) -/

/-- Writing the encoder's or the parser's unit passes `ACC` by. -/
theorem OpClass.put_withAcc {c : OpClass} (h : c ≠ .cs) (src b : Block) (acc : AccWord) :
    c.put src { b with acc := acc } = { c.put src b with acc := acc } := by
  cases c with
  | cs => exact absurd rfl h
  | en | rxp => rfl

/-- An operation of the encoder or of the parser does the same and emits the same whatever `ACC` holds,
and keeps it. -/
theorem exec_withAcc {i : Instr} {c : OpClass} {s : State} (hs : s.Inv) (hi : opClass i = some c)
    (hc : c ≠ .cs) :
    ∃ (b : Block) (outs : List OutEvent), ∀ acc,
      exec i { s with block := { s.block with acc := acc } } =
        .next { s with block := { b with acc := acc }, output := s.output ++ outs } := by
  obtain ⟨hl, hb⟩ := hs
  obtain ⟨src, outs, hop⟩ := blockOp_local hb hi
  refine ⟨c.put src s.block, outs, fun acc => ?_⟩
  have heff := hop { s.block with acc := acc } (by rw [OpClass.put_withAcc hc, c.put_self])
  rw [OpClass.put_withAcc hc] at heff
  exact exec_of_blockOp (s := { s with block := { s.block with acc := acc } }) hl heff

/-- Settles O11: the sum along the trace, and each of the other two classes' indifference to `ACC`. -/
theorem csumFollowsBytesPut : Obligations.CsumFollowsBytesPut :=
  ⟨fun ops _ hs => readCsum_after_csClr ops hs, fun _ _ hs hclass =>
    hclass.elim (exec_withAcc hs · (by decide)) (exec_withAcc hs · (by decide))⟩

end Sys2Proof.Machine
end

section
/-! PROOFS. The encoder (spec/41_encoder.md R142 to R161): what each operation emits and leaves unchanged,
that a trace of operations holds the filename offered, and the command frames delivered back through the
parser. -/

namespace Sys2Proof.Machine

/-! ### The filename along a trace (R147) -/

/-- The block holds the filename `name`, all bytes offered counted up to 25, and the bytes themselves while
there are at most 24 of them (R38, R144). -/
def Block.HoldsName (b : Block) (name : List Byte) : Prop :=
  b.nlen.toNat = min name.length 25 ∧
    (name.length ≤ 24 → b.nbuf.firstFrom 0 name.length = some name)

/-- With `NLEN` at 0 the empty filename is held (R143). -/
theorem Block.holdsName_nil {b : Block} (h : b.nlen = 0) : b.HoldsName [] :=
  ⟨by rw [h]; rfl, fun _ => rfl⟩

/-- A filename held that is not over-long is the one `ENC_DIR` reads (R146). -/
theorem Block.HoldsName.nameHeld {b : Block} {name : List Byte} (h : b.HoldsName name)
    (hn : name.length ≤ 24) : b.nameHeld = some name := by
  obtain ⟨hlen, hread⟩ := h
  have hmin : min b.nlen.toNat 24 = name.length := by omega
  rw [Block.nameHeld, hmin]
  exact hread hn

/-- `NM_PUT` with fewer than 24 bytes held appends the byte to the filename (R144). -/
theorem Block.HoldsName.store {b : Block} {name : List Byte} (h : b.HoldsName name) (v : Byte)
    (hlt : b.nlen.toNat < 24) :
    Block.HoldsName { b with nlen := b.nlen + 1, nbuf := b.nbuf.write b.nlen.toNat v }
      (name ++ [v]) := by
  obtain ⟨hlen, hread⟩ := h
  have hname : b.nlen.toNat = name.length := by omega
  have hwrite := Memory.firstFrom_write v (hread (by omega))
  rw [Nat.zero_add, ← hname] at hwrite
  refine ⟨?_, fun _ => ?_⟩
  · simp [BitVec.toNat_add]; omega
  · simpa [hname] using hwrite

/-- `NM_PUT` with 24 bytes or more offered only records the overflow (R144). -/
theorem Block.HoldsName.overflow {b : Block} {name : List Byte} (h : b.HoldsName name) (v : Byte)
    (hge : 24 ≤ b.nlen.toNat) : Block.HoldsName { b with nlen := 25 } (name ++ [v]) := by
  obtain ⟨hlen, -⟩ := h
  have hlong : 25 ≤ (name ++ [v]).length := by simp; omega
  exact ⟨(Nat.min_eq_right hlong).symm, fun hle => absurd hle (by omega)⟩

/-- The filename bytes a trace offers, its first operation apart. -/
theorem nameOffered_cons (held : List Byte) (i : Instr) (is : List Instr) :
    nameOffered held (i :: is) = nameOffered (nameOffered held [i]) is := by
  cases i <;> rfl

/-- A row that writes nothing offers no byte and drops none. -/
theorem nameOffered_of_readsOnly {i : Instr} (held : List Byte) (h : readsOnly i = true) :
    nameOffered held [i] = held := by
  cases i with
  | rst | nmClr | nmPut => cases h
  | _ => rfl

/-- A response row offers no byte and drops none. -/
theorem nameOffered_rspInstr (held : List Byte) (k : Kind) (len : Byte) (data : List Byte)
    (cks : Byte) : nameOffered held [rspInstr k len data cks] = held := by
  cases k <;> rfl

/-- Every operation moves the filename held as it moves the bytes offered: its writers one by one, every
other operation by leaving `NLEN`, `NBUF` and the bytes offered. -/
theorem Writes.holdsName {b b' : Block} {i : Instr} {name : List Byte} (h : Writes b i b')
    (hb : b.HoldsName name) : b'.HoldsName (nameOffered name [i]) := by
  have of_kept : ∀ {c : Block} {j : Instr}, c.nlen = b.nlen → c.nbuf = b.nbuf →
      nameOffered name [j] = name → c.HoldsName (nameOffered name [j]) := by
    intro c j hnlen hnbuf hoffered
    rw [hoffered, Block.HoldsName, hnlen, hnbuf]
    exact hb
  cases h with
  | rst | nmClr => exact Block.holdsName_nil rfl
  | nmPutStore v hlt => exact hb.store v hlt
  | nmPutOverflow v hge => exact hb.overflow v hge
  | nothing hi => exact of_kept rfl rfl (nameOffered_of_readsOnly name hi)
  | rx hr =>
    obtain ⟨-, -, hnlen, hnbuf, -⟩ := receive_frame hr
    exact of_kept hnlen hnbuf rfl
  | response hr =>
    obtain ⟨-, -, hnlen, hnbuf⟩ := receiveAll_frame hr
    exact of_kept hnlen hnbuf (nameOffered_rspInstr name _ _ _ _)
  | setPre | csClr | csPut | rxEnd => exact of_kept rfl rfl rfl

/-- Along a trace the block holds the filename offered. -/
theorem runTrace_holdsName (ops : List Instr) :
    ∀ {s t : State} {name : List Byte}, runTrace ops s = .next t → s.block.HoldsName name →
      t.block.HoldsName (nameOffered name ops) := by
  induction ops with
  | nil =>
    intro s t name h hs
    injection h with h
    exact h ▸ hs
  | cons i is ih =>
    intro s t name h hs
    obtain ⟨u, hex, hrun⟩ := runTrace_cons_eq_next h
    rw [nameOffered_cons]
    exact ih hrun ((exec_writes hex).holdsName hs)

/-! ### What the two encoders emit (R145, R146) -/

/-- An operation that emits one output and leaves the block, on a machine that has been reset. -/
theorem exec_of_emit {i : Instr} {s : State} {o : OutEvent} (hl : s.launched = true)
    (h : blockOp i s.block = emit o s.block) :
    exec i s = .next { s with output := s.output ++ [o] } :=
  exec_of_blockOp hl h

/-- The bytes of `ENC_SIMPLE` written out: the zero length byte adds nothing to the checksum (R160). -/
theorem simpleBytes_eq (t : Byte) (trail : Bool) : simpleBytes t trail =
    [0x5A, 0x5A, t, 0x00, t ^^^ 0xFF#8] ++ if trail then [0x0D] else [] := by
  have hsum : checksum [t, 0x00] = t ^^^ 0xFF#8 := checksum_singleton t
  rw [← hsum]
  cases trail <;> rfl

/-- A row that performs `ENC_SIMPLE` emits its bytes and writes nothing. -/
theorem exec_of_encodeSimple {i : Instr} {t : Byte} {trail : Bool} {s : State}
    (hl : s.launched = true) (hop : blockOp i = encodeSimple t trail) :
    exec i s = .next { s with output := s.output ++ [.txf (simpleBytes t trail)] } :=
  exec_of_emit hl (congrFun hop s.block)

/-- `ENC_DIR` on the filename held answers what `buildDirectoryCommand` answers, test by test (R147). -/
theorem encodeDirectory_of_holdsName {b : Block} {name : List Byte} (sf : Byte)
    (h : b.HoldsName name) : encodeDirectory sf b = emit (directoryReply sf name) b := by
  obtain ⟨hlen, -⟩ := id h
  by_cases hlong : name.length > Config.nbufN
  · have hn : b.nlen.toNat = 25 := by
      rw [hlen]
      exact Nat.min_eq_right hlong
    rw [encodeDirectory_overflow sf hn, directoryReply, buildDirectoryCommand, if_pos hlong]
  · have hle : name.length ≤ 24 := Nat.le_of_not_lt hlong
    have hn : b.nlen.toNat ≤ 24 := by omega
    by_cases hsf : sf > lastSearchForm
    · rw [encodeDirectory_badForm hn hsf, directoryReply, buildDirectoryCommand, if_neg hlong,
        if_pos hsf]
    · rw [encodeDirectory_of_nameHeld hn (Nat.le_of_not_lt hsf) (h.nameHeld hle), directoryReply,
        buildDirectoryCommand, if_neg hlong, if_neg hsf]

/-- The filename held is `NLEN` bytes long (R37). -/
theorem Block.nameHeld_length {b : Block} {name : List Byte} (hn : b.nlen.toNat ≤ 24)
    (h : b.nameHeld = some name) : name.length = b.nlen.toNat := by
  rw [Memory.firstFrom_length h, Nat.min_eq_left hn]

/-- The checksum of a directory command in closed form (R161). -/
theorem checksum_directoryBody (sf : Byte) (name : List Byte) :
    checksum (directoryBody sf name) =
      onesComplement (96 + byteSum name + 32 * (24 - name.length) + sf.toNat) := by
  refine congrArg onesComplement ?_
  simp [directoryBody, padName, byteSum_replicate, directoryType, directoryLength, attributeByte,
    padByte, Config.nbufN]
  omega

/-- The directory frame, its filename field written out (R88, R90). -/
theorem directoryFrame_eq (sf : Byte) (name : List Byte) : directoryFrame sf name =
    [0x5A, 0x5A, 0x00, 0x1A] ++ name ++ List.replicate (24 - name.length) 0x20 ++
      [0x46, sf, checksum (directoryBody sf name)] := by
  rw [directoryFrame, frameOfBody]
  generalize checksum (directoryBody sf name) = c
  simp [directoryBody, padName, preambleByte, directoryType, directoryLength, attributeByte,
    padByte, Config.nbufN]

/-! ### The statements about single operations -/

/-- Settles O12: `NM_CLR` is a quiet operation of the block. -/
theorem nmClrClearsOnlyNlen : Obligations.NmClrClearsOnlyNlen :=
  fun _ hl => State.perform_quiet (op := nmClr) hl rfl

/-- Settles O13, by whether `NM_PUT` stores or saturates. -/
theorem nmPutAppendsOrSaturates : Obligations.NmPutAppendsOrSaturates := by
  intro v s hl
  by_cases hlt : s.block.nlen.toNat < 24
  · refine ⟨_, State.perform_quiet (op := nmPut v) hl (nmPut_of_lt v hlt), ?_, rfl⟩
    rw [if_pos hlt]
    refine ⟨?_, fun a => Memory.read_write _ _ a v⟩
    simp [BitVec.toNat_add]
    omega
  · refine ⟨_, State.perform_quiet (op := nmPut v) hl (nmPut_of_ge v (Nat.le_of_not_lt hlt)), ?_, rfl⟩
    rw [if_neg hlt]
    exact ⟨rfl, rfl⟩

/-- Settles O14: the operation emits `simpleBytes`, written out. -/
theorem encSimpleEmitsFrame : Obligations.EncSimpleEmitsFrame := by
  intro t trail s hl
  rw [← simpleBytes_eq]
  exact exec_of_encodeSimple hl rfl

/-- The seven simple rows are `ENC_SIMPLE` of their codes, whose bytes are the literals (R148 to R154). -/
theorem blockOp_of_simpleRow {i : Instr} {frame : List Byte}
    (hi : (i, frame) ∈ [
      (Instr.driveStatus, [0x5A, 0x5A, 0x07, 0x00, 0xF8]),
      (.driveStatusCr, [0x5A, 0x5A, 0x07, 0x00, 0xF8, 0x0D]),
      (.driveCondition, [0x5A, 0x5A, 0x0C, 0x00, 0xF3]),
      (.close, [0x5A, 0x5A, 0x02, 0x00, 0xFD]),
      (.format, [0x5A, 0x5A, 0x06, 0x00, 0xF9]),
      (.formatCr, [0x5A, 0x5A, 0x06, 0x00, 0xF9, 0x0D]),
      (.erase, [0x5A, 0x5A, 0x05, 0x00, 0xFA])]) :
    ∃ t trail, blockOp i = encodeSimple t trail ∧ simpleBytes t trail = frame := by
  simp only [List.mem_cons, Prod.mk.injEq, List.not_mem_nil, or_false] at hi
  obtain ⟨rfl, rfl⟩ | ⟨rfl, rfl⟩ | ⟨rfl, rfl⟩ | ⟨rfl, rfl⟩ | ⟨rfl, rfl⟩ | ⟨rfl, rfl⟩ | ⟨rfl, rfl⟩ := hi
  all_goals exact ⟨_, _, rfl, rfl⟩

/-- Settles O15, row by row. -/
theorem namedSimpleCommandsEmitLiterals : Obligations.NamedSimpleCommandsEmitLiterals := by
  intro i frame s hl hi
  obtain ⟨t, trail, hop, rfl⟩ := blockOp_of_simpleRow hi
  exact exec_of_encodeSimple hl hop

/-- Settles O16: the two errors in order, and the frame of the filename held. -/
theorem encDirRepliesInOrder : Obligations.EncDirRepliesInOrder := by
  intro sf s hl
  refine ⟨fun hn => exec_of_emit hl (encodeDirectory_overflow sf hn),
    fun hn hsf => exec_of_emit hl (encodeDirectory_badForm hn hsf), fun name hn hsf hname => ?_⟩
  refine ⟨Block.nameHeld_length hn hname, ?_⟩
  exact exec_of_emit hl (encodeDirectory_of_nameHeld hn hsf hname)

/-- The five directory rows are `ENC_DIR` with their search forms (R155 to R159). -/
theorem blockOp_of_directoryRow {i : Instr} {sf : Byte}
    (h : (i, sf) ∈ [(Instr.dirRef, 0x00#8), (.dirFirst, 0x01#8), (.dirNext, 0x02#8),
      (.dirPrev, 0x03#8), (.dirEnd, 0x04#8)]) :
    blockOp i = encodeDirectory sf ∧ sf.toNat ≤ 4 := by
  simp only [List.mem_cons, Prod.mk.injEq, List.not_mem_nil, or_false] at h
  obtain ⟨rfl, rfl⟩ | ⟨rfl, rfl⟩ | ⟨rfl, rfl⟩ | ⟨rfl, rfl⟩ | ⟨rfl, rfl⟩ := h
  all_goals exact ⟨rfl, by decide⟩

/-- Settles O17: each row is `ENC_DIR` of its search form on the filename held. -/
theorem directoryRowsEncodeLoadedName : Obligations.DirectoryRowsEncodeLoadedName := by
  intro i sf s hl hi
  obtain ⟨hop, hsf⟩ := blockOp_of_directoryRow hi
  refine ⟨fun hn => exec_of_emit hl (by rw [hop, encodeDirectory_overflow sf hn]),
    fun name hn hname => ?_⟩
  rw [← onesComplement, ← checksum_directoryBody, ← directoryFrame_eq]
  exact exec_of_emit hl (by rw [hop, encodeDirectory_of_nameHeld hn hsf hname])

/-- The rows of the encoder are its two operations (R99). -/
theorem blockOp_of_encoderRow {i : Instr}
    (h : (∃ t x, i = .encSimple t x) ∨ (∃ sf, i = .encDir sf) ∨
      i ∈ [Instr.driveStatus, .driveStatusCr, .driveCondition, .close, .format, .formatCr, .erase,
        .dirRef, .dirFirst, .dirNext, .dirPrev, .dirEnd]) :
    (∃ t x, blockOp i = encodeSimple t x) ∨ ∃ sf, blockOp i = encodeDirectory sf := by
  obtain ⟨t, x, rfl⟩ | ⟨sf, rfl⟩ | h := h
  · exact .inl ⟨t, x, rfl⟩
  · exact .inr ⟨sf, rfl⟩
  · revert i
    simp only [List.forall_mem_cons]
    exact ⟨.inl ⟨_, _, rfl⟩, .inl ⟨_, _, rfl⟩, .inl ⟨_, _, rfl⟩, .inl ⟨_, _, rfl⟩,
      .inl ⟨_, _, rfl⟩, .inl ⟨_, _, rfl⟩, .inl ⟨_, _, rfl⟩, .inr ⟨_, rfl⟩, .inr ⟨_, rfl⟩,
      .inr ⟨_, rfl⟩, .inr ⟨_, rfl⟩, .inr ⟨_, rfl⟩, fun _ h => absurd h List.not_mem_nil⟩

/-- Settles O18: `ENC_SIMPLE` reads nothing of the block, and `ENC_DIR` the filename alone. -/
theorem encodersArePure : Obligations.EncodersArePure := by
  intro i s s' hi hs hl' hnlen hnbuf
  obtain ⟨hl, hb⟩ := hs
  obtain ⟨t, x, hop⟩ | ⟨sf, hop⟩ := blockOp_of_encoderRow hi
  · exact ⟨_, exec_of_encodeSimple hl hop, exec_of_encodeSimple hl' hop⟩
  · obtain ⟨o, ho⟩ := encodeDirectory_total sf hb
    rw [← hop] at ho
    exact ⟨o, exec_of_emit hl (ho _ rfl rfl), exec_of_emit hl' (ho _ hnlen hnbuf)⟩

/-! ### Loading a filename and encoding it (R147) -/

/-- After `NM_CLR` and any operations the block holds the bytes offered since. -/
theorem runTrace_nmClr_holdsName {ops : List Instr} {s t : State} (hl : s.launched = true)
    (h : runTrace (.nmClr :: ops) s = .next t) : t.block.HoldsName (nameOffered [] ops) := by
  simp only [runTrace, nmClrClearsOnlyNlen s hl] at h
  exact runTrace_holdsName ops h (Block.holdsName_nil rfl)

/-- Settles O19: `ENC_SIMPLE` emits `simpleBytes`, and a trace leaves a block that holds the filename
offered, on which `ENC_DIR` answers what `buildDirectoryCommand` does. -/
theorem filenameTraceBuildsCommand : Obligations.FilenameTraceBuildsCommand := by
  refine ⟨fun t s hl => ⟨exec_of_encodeSimple (t := t) (trail := false) hl rfl,
      exec_of_encodeSimple (t := t) (trail := true) hl rfl⟩,
    fun ops sf s hs => ?_⟩
  obtain ⟨t, hrun, htl, -⟩ := runTrace_of_inv (.nmClr :: ops) hs
  have hname := runTrace_nmClr_holdsName hs.1 hrun
  exact ⟨t, hrun, hname.1, exec_of_emit htl (encodeDirectory_of_holdsName sf hname)⟩

/-! ### The command frames through the parser (R148 to R159, R182, R183) -/

/-- The bytes after a command frame: the trailer of a CMD0T row (R87). -/
def trailerOf (i : Instr) : List Byte :=
  if i = .driveStatusCr ∨ i = .formatCr then [trailerByte] else []

theorem trailerOf_isEmpty (i : Instr) :
    (!(trailerOf i).isEmpty) = decide (i = .driveStatusCr ∨ i = .formatCr) := by
  unfold trailerOf
  split <;> simp [*]

theorem trailerOf_length_le (i : Instr) : (trailerOf i).length ≤ 1 := by
  unfold trailerOf
  split <;> simp

/-- A command frame and its trailer: the length byte counts the data, at most 26 bytes, and the type is no
response code (R86 to R88). `encode_isCommandFrame` ties it to `encode`. -/
def IsCommandFrame (trailer frame : List Byte) : Prop :=
  ∃ t n data, data.length = n.toNat ∧ data.length ≤ 26 ∧ dispatch t = .miss ∧
    frame = frameOfBody (t :: n :: data) ++ trailer

/-- A frame without data (R86, R87). -/
theorem isCommandFrame_simple {t : Byte} (trailer : List Byte) (ht : dispatch t = .miss) :
    IsCommandFrame trailer (frameOfBody [t, 0x00] ++ trailer) :=
  ⟨t, 0x00, [], rfl, Nat.zero_le _, ht, rfl⟩

/-- A directory frame (R88). -/
theorem isCommandFrame_directory {sf : Byte} {name frame : List Byte}
    (h : encodeDir sf name = some frame) : IsCommandFrame [] frame := by
  by_cases hn : name.length ≤ 24
  · rw [encodeDir_of_le sf hn, Option.some.injEq] at h
    have hlen : (padName name ++ [attributeByte, sf]).length = 26 := by simp [padName_length hn]
    refine ⟨directoryType, directoryLength, _, hlen, Nat.le_of_eq hlen, by decide, ?_⟩
    rw [← h]
    simp [frameOfBody, directoryBody, preambleByte, attributeByte, directoryType, directoryLength]
  · rw [encodeDir, if_neg hn] at h
    cases h

/-- A named command row encodes to a command frame with the row's trailer. -/
theorem encode_isCommandFrame {i : Instr} {name frame : List Byte}
    (henc : encode i name = some frame) (hi : notResponse i) :
    IsCommandFrame (trailerOf i) frame := by
  cases i with
  | rst | setPre _ | rd _ | csClr | csPut _ | nmClr | nmPut _ | encSimple _ _ | encDir _ | rx _
  | rxEnd => cases henc
  | driveStatus | driveStatusCr => cases henc; exact isCommandFrame_simple (t := 0x07) _ (by decide)
  | driveCondition => cases henc; exact isCommandFrame_simple (t := 0x0C) _ (by decide)
  | close => cases henc; exact isCommandFrame_simple (t := 0x02) _ (by decide)
  | format | formatCr => cases henc; exact isCommandFrame_simple (t := 0x06) _ (by decide)
  | erase => cases henc; exact isCommandFrame_simple (t := 0x05) _ (by decide)
  | dirRef | dirFirst | dirNext | dirPrev | dirEnd => exact isCommandFrame_directory henc
  | rspReadFileMore => exact absurd hi (not_notResponse_rspInstr .readFileMore _ _ _)
  | rspDirectoryMore => exact absurd hi (not_notResponse_rspInstr .directoryMore _ _ _)
  | rspGeneric12 => exact absurd hi (not_notResponse_rspInstr .generic12 _ _ _)
  | rspDriveCondition => exact absurd hi (not_notResponse_rspInstr .driveCondition _ _ _)

/-- A frame whose length byte counts its data, delivered in format F: complete, with whatever bytes follow
as the trailer (R183 (b)). -/
theorem formatFResult_of_frame {t n : Byte} {data : List Byte} (h : data.length = n.toNat)
    (after : List Byte) :
    formatFResult (frameOfBody (t :: n :: data) ++ after) =
      { cls := classifyCode preambleByte, prs := .frameOK, pm := true, phase := .done, type := t
        len := n, cnt := n, data := data, rck := checksum (t :: n :: data)
        xck := checksum (t :: n :: data), kind := dispatch t, skip := false
        trail := !after.isEmpty } := by
  have hfind : findPreamble (frameOfBody (t :: n :: data) ++ after) =
      some (0, t :: n :: (data ++ checksum (t :: n :: data) :: after)) := by
    simp [findPreamble, frameOfBody, preambleByte]
  have hdrop : (data ++ checksum (t :: n :: data) :: after).drop n.toNat =
      checksum (t :: n :: data) :: after := by simp [← h]
  have htake : (data ++ checksum (t :: n :: data) :: after).take n.toNat = data := by simp [← h]
  simp only [formatFResult, hfind, frameResult, hdrop, htake]
  rfl

/-- In format RSP the second preamble byte is read as a length of 90, which a shorter buffer does not
reach (R182 (b)). -/
theorem rspResult_of_preamble {body : List Byte} (h : body.length < 90) :
    (rspResult (preambleByte :: preambleByte :: body)).prs = .truncated ∧
    (rspResult (preambleByte :: preambleByte :: body)).type = preambleByte ∧
    (rspResult (preambleByte :: preambleByte :: body)).len = preambleByte ∧
    (rspResult (preambleByte :: preambleByte :: body)).kind = .miss := by
  have hdrop : body.drop preambleByte.toNat = [] := List.drop_eq_nil_of_le (Nat.le_of_lt h)
  simp only [rspResult, frameResult, hdrop]
  decide

/-- Settles O34: the record of the delivery is that of the row's frame, in the mode of the buffer. -/
theorem namedFramesDelivered : Obligations.NamedFramesDelivered := by
  intro i name frame s hs hidle henc hi
  obtain ⟨t, n, data, hlen, hle, hmiss, rfl⟩ := encode_isCommandFrame henc hi
  obtain ⟨b, -, -, hrun⟩ := runTrace_delivery _ hs hidle
  refine ⟨_, _, hrun, rfl, bufferResult_cls _ _ _, ?_⟩
  cases hpre : s.block.pre with
  | true =>
    rw [bufferResult, if_pos rfl, formatFResult_of_frame hlen, trailerOf_isEmpty]
    exact ⟨hmiss, fun _ => ⟨rfl, rfl, rfl⟩, nofun⟩
  | false =>
    have hshort : (t :: n :: data ++ [checksum (t :: n :: data)] ++ trailerOf i).length < 90 := by
      have htrailer := trailerOf_length_le i
      simp
      omega
    obtain ⟨hprs, htype, hblen, hkind⟩ := rspResult_of_preamble hshort
    exact ⟨hkind, nofun, fun _ => ⟨hprs, htype, hblen⟩⟩

end Sys2Proof.Machine
end

section
/-! PROOFS. The parser (spec/42_parser.md R171 to R187): `RX` in each phase, `RX_END`, the phase table,
and a buffer delivered from `IDLE` as a function of its bytes and the mode (`runTrace_delivery`). -/

namespace Sys2Proof.Machine

/-! ### `RX` in each phase (R171 to R178) -/

/-- The next state of `RX` is that of its arm, nothing emitted (R171). -/
theorem exec_rx {v : Byte} {s : State} {b : Block} (hl : s.launched = true)
    (h : receive v s.block = .ok b) : exec (.rx v) s = .next { s with block := b } :=
  State.perform_quiet (op := receiveByte v) hl (by rw [receiveByte, h])

section
variable {b : Block} (v : Byte)

/-- The first byte of a format-RSP buffer is its type byte (R171, R174). -/
theorem receive_of_idle_rsp (hp : b.phase = .idle) (hpre : b.pre = false) :
    receive v b = .ok { b with
      got := true, code := v, pm := false, type := v, pacc := v.zeroExtend 16, phase := .len } := by
  simp [receive, hp, hpre, rxType, beginBuffer]

/-- The first byte of a format-F buffer goes to arm `HUNT` (R171, R172). -/
theorem receive_of_idle_f (hp : b.phase = .idle) (hpre : b.pre = true) :
    receive v b = .ok (rxHunt v { b with got := true, code := v, pm := true }) := by
  simp [receive, hp, hpre, beginBuffer]

theorem receive_of_hunt (hp : b.phase = .hunt) : receive v b = .ok (rxHunt v b) := by
  simp only [receive, hp]

theorem receive_of_pre2 (hp : b.phase = .pre2) : receive v b = .ok (rxPre2 v b) := by
  simp only [receive, hp]

theorem receive_of_type (hp : b.phase = .type) : receive v b = .ok (rxType v b) := by
  simp only [receive, hp]

theorem receive_of_len (hp : b.phase = .len) : receive v b = .ok (rxLen v b) := by
  simp only [receive, hp]

/-- Arm `DATA` while fewer bytes are held than the length byte declares (R176). -/
theorem receive_of_data (hp : b.phase = .data) (hlt : b.cnt.toNat < b.len.toNat) :
    receive v b = .ok { b with
      dbuf := b.dbuf.write b.cnt.toNat v, pacc := b.pacc + v.zeroExtend 16, cnt := b.cnt + 1,
      phase := if b.cnt + 1 = b.len then .cks else .data } := by
  have hindex : b.cnt.toNat < 255 := by have := b.len.isLt; omega
  simp only [receive, hp, rxData_of_lt v hindex]

theorem receive_of_cks (hp : b.phase = .cks) : receive v b = .ok (rxCks v b) := by
  simp only [receive, hp]

theorem receive_of_done (hp : b.phase = .done) : receive v b = .ok (rxDone b) := by
  simp only [receive, hp]

end

/-- The preamble byte in arm `HUNT` (R172). -/
theorem rxHunt_preamble (b : Block) : rxHunt 0x5A b = { b with phase := .pre2 } := rfl

/-- Any other byte in arm `HUNT` is skipped (R172). -/
theorem rxHunt_other {v : Byte} (h : v ≠ 0x5A) (b : Block) :
    rxHunt v b = { b with phase := .hunt, skip := true } := if_neg h

/-- `CNT` counts a data byte without wrapping, being below `LEN` (R61). -/
theorem cnt_succ_toNat {cnt len : Byte} (h : cnt.toNat < len.toNat) :
    (cnt + 1).toNat = cnt.toNat + 1 := by
  have hlt : cnt.toNat + 1 < 2 ^ 8 := by have := len.isLt; omega
  exact (BitVec.toNat_add cnt 1).trans (Nat.mod_eq_of_lt hlt)

/-- Settles O21: the arm the mode selects, after the prologue. -/
theorem rxBeginsBuffer : Obligations.RxBeginsBuffer := by
  intro v s hl hp
  refine ⟨fun hpre => exec_rx hl (receive_of_idle_rsp v hp hpre), fun hpre hv => ?_,
    fun hpre hv => ?_⟩
  · subst hv
    have hr := receive_of_idle_f 0x5A hp hpre
    rw [rxHunt_preamble] at hr
    exact exec_rx hl hr
  · have hr := receive_of_idle_f v hp hpre
    rw [rxHunt_other hv] at hr
    exact exec_rx hl hr

/-- Settles O22: the arms of the two phases differ in where a preamble byte leads. -/
theorem rxHuntsPreamble : Obligations.RxHuntsPreamble := by
  rintro v s hl (hp | hp)
  · rw [if_pos hp]
    exact exec_rx hl (receive_of_hunt v hp)
  · have hne : ¬ s.block.phase = .hunt := by simp [hp]
    rw [if_neg hne]
    exact exec_rx hl (receive_of_pre2 v hp)

/-- Settles O23: arms `TYPE` and `LEN`. -/
theorem rxTakesTypeAndLength : Obligations.RxTakesTypeAndLength := fun v _ hl =>
  ⟨fun hp => exec_rx hl (receive_of_type v hp), fun hp => exec_rx hl (receive_of_len v hp)⟩

/-- Settles O24: the store of arm `DATA` is inside `DBUF`, and `CNT` does not wrap. -/
theorem rxTakesDataByte : Obligations.RxTakesDataByte := by
  intro v s hl hp hlt
  have hcnt := cnt_succ_toNat hlt
  refine ⟨_, exec_rx hl (receive_of_data v hp hlt), fun a => Memory.read_write _ _ a v, hcnt,
    toNat_add_zeroExtend s.block.pacc v, ?_, rfl⟩
  simp only [← BitVec.toNat_inj, hcnt]

/-- Settles O25: arms `CKS`, whose `CKOK` is the equality test with `XCK`, and `DONE`. -/
theorem rxTakesChecksumAndTrail : Obligations.RxTakesChecksumAndTrail := fun v _ hl =>
  ⟨fun hp => exec_rx hl (receive_of_cks v hp), fun hp => exec_rx hl (receive_of_done v hp)⟩

/-! ### `RX_END` and the phase table (R179, R187) -/

/-- The mode a record shows, by whether the buffer has a byte (R179). -/
theorem Block.bufferMode_eq (b : Block) :
    b.bufferMode = if b.phase = .idle then b.pre else b.pm := by
  unfold Block.bufferMode
  cases b.phase <;> rfl

/-- Settles O27: the record is `Block.result` of the state before, and the parser is cleared. -/
theorem rxEndReportsAndClears : Obligations.RxEndReportsAndClears := by
  intro data s hl hdata
  rw [← Block.bufferMode_eq]
  exact State.perform_emit (op := endBuffer) hl (endBuffer_of_dataHeld hdata)

/-- Every next state of `RX_END` has the parser cleared (R179). -/
theorem exec_rxEnd_block {s t : State} (h : exec .rxEnd s = .next t) :
    t.block = s.block.clearParser := by
  obtain ⟨-, b, outs, hop, rfl⟩ := State.perform_eq_next_iff.mp h
  exact (endBuffer_cases hop).1

/-- Settles O26: the writers of `PHASE` one by one; every other operation leaves it. -/
theorem phaseMovesByTable : Obligations.PhaseMovesByTable := by
  intro i s t h
  have hw := exec_writes h
  clear h
  generalize s.block = b, t.block = b' at hw ⊢
  cases hw with
  | rx hr =>
    obtain ⟨-, -, -, -, -, hphase⟩ := receive_frame hr
    exact hphase
  | nothing hi =>
    cases i with
    | rst | rx _ | rxEnd | rspReadFileMore _ _ _ | rspDirectoryMore _ _ _ | rspGeneric12 _ _ _
    | rspDriveCondition _ _ _ => cases hi
    | _ => rfl
  | @response k => cases k <;> trivial
  | rst | rxEnd | setPre | csClr | csPut | nmClr | nmPutStore | nmPutOverflow => rfl

/-! ### A buffer as a function of its bytes and the mode (R182, R183, R185) -/

/-- A buffer delivered from `IDLE` emits one record, that of its bytes in the mode of `CTRL.PRE`. -/
theorem runTrace_delivery_output (buffer : List Byte) {s : State} {pre : Bool} (hs : s.Inv)
    (hidle : s.block.phase = .idle) (hpre : s.block.pre = pre) :
    ∃ t, runTrace (delivery buffer) s = .next t ∧
      t.output = s.output ++ [.res (bufferResult pre buffer)] := by
  obtain ⟨b, -, -, hrun⟩ := runTrace_delivery buffer hs hidle
  exact ⟨_, hrun, by rw [hpre]⟩

/-- Settles O29: `bufferResult` with `PRE` = 0. -/
theorem formatRspParsesBuffer : Obligations.FormatRspParsesBuffer :=
  fun buffer _ hs hidle hpre => runTrace_delivery_output buffer hs hidle hpre

/-- Settles O30: `bufferResult` with `PRE` = 1. -/
theorem formatFParsesBuffer : Obligations.FormatFParsesBuffer :=
  fun buffer _ hs hidle hpre => runTrace_delivery_output buffer hs hidle hpre

/-- Settles O32: the cleared registers are the reset ones, and the record of either machine is
`bufferResult` of the mode and the bytes. -/
theorem noStateSurvivesBuffer : Obligations.NoStateSurvivesBuffer := by
  refine ⟨fun s t h => by rw [exec_rxEnd_block h, Block.clearParser_eq],
    fun buffer s s' hs hs' hidle hidle' hpre => ?_⟩
  obtain ⟨t, hrun, hout⟩ := runTrace_delivery_output buffer hs hidle hpre
  obtain ⟨t', hrun', hout'⟩ := runTrace_delivery_output buffer hs' hidle' rfl
  exact ⟨t, t', _, hrun, hrun', hout, hout'⟩

/-! ### What the encoder emits, delivered back (R184) -/

/-- An operation that emits a frame whose length byte counts its data, and the frame delivered back
in format F: complete, nothing skipped, type, length and data those of the frame, and the bytes after
it as the trailer. -/
theorem delivery_of_emitted_frame {i : Instr} {s : State} {t n : Byte} {data after : List Byte}
    (hs : s.Inv) (hidle : s.block.phase = .idle) (hpre : s.block.pre = true)
    (hlen : data.length = n.toNat)
    (hexec : exec i s = .next { s with
      output := s.output ++ [.txf (frameOfBody (t :: n :: data) ++ after)] }) :
    ∃ s1 frame s2 r, exec i s = .next s1 ∧ s1.output = s.output ++ [.txf frame] ∧
      runTrace (delivery frame) s1 = .next s2 ∧ s2.output = s1.output ++ [.res r] ∧
      r.prs = .frameOK ∧ r.skip = false ∧ r.type = t ∧ r.len = n ∧ r.data = data ∧
      r.trail = !after.isEmpty := by
  obtain ⟨s2, hrun, hout⟩ := runTrace_delivery_output (frameOfBody (t :: n :: data) ++ after)
    (exec_inv hs hexec) hidle hpre
  rw [bufferResult, if_pos rfl, formatFResult_of_frame hlen] at hout
  exact ⟨_, _, s2, _, hexec, rfl, hrun, hout, rfl, rfl, rfl, rfl, rfl, rfl⟩

/-- The bytes of `ENC_SIMPLE` are a frame without data and the trailer asked for (R145). -/
theorem simpleBytes_eq_frame (t : Byte) (trail : Bool) : simpleBytes t trail =
    frameOfBody [t, 0x00] ++ if trail then [trailerByte] else [] := by
  cases trail <;> rfl

/-- Settles O33: the verification law of the checksum in its two forms, and the frames of the two
encoders delivered back. -/
theorem encodedFramesLoopBack : Obligations.EncodedFramesLoopBack := by
  refine ⟨fun t n c d => ⟨?_, eq_checksum_iff_checksum_append _ c⟩,
    fun t trail s hs hidle hpre => ?_, fun sf name s hs hidle hpre hn hsf hname => ?_⟩
  · rw [eq_checksum_iff_sum]
    simp [Nat.add_assoc]
  · have hexec := exec_of_encodeSimple (i := .encSimple t trail) hs.1 rfl
    rw [simpleBytes_eq_frame] at hexec
    have hloop := delivery_of_emitted_frame hs hidle hpre rfl hexec
    cases trail <;> exact hloop
  · have hexec := exec_of_emit (i := .encDir sf) hs.1 (encodeDirectory_of_nameHeld hn hsf hname)
    have hname24 : name.length ≤ 24 := (Block.nameHeld_length hn hname).symm ▸ hn
    have hlen : (padName name ++ [attributeByte, sf]).length = directoryLength.toNat := by
      simp [padName_length hname24, directoryLength]
    rw [directoryFrame, ← List.append_nil (frameOfBody _)] at hexec
    exact delivery_of_emitted_frame hs hidle hpre hlen hexec

end Sys2Proof.Machine
end

section
/-! PROOFS. The dispatch multiplexer (spec/43_dispatch.md R200, R201, R210): `dispatch` inverts `DROM`, and
the record of a buffer classifies its byte 0. -/

namespace Sys2Proof.Machine

/-! ### The dispatch table (R200) -/

/-- A hit names the kind whose entry of `DROM` the code is. -/
theorem dispatch_eq_hit_iff {code : Byte} {k : Kind} : dispatch code = .hit k ↔ code = drom k := by
  constructor
  · intro h
    unfold dispatch at h
    repeat' split at h
    case isFalse.isFalse.isFalse.isFalse => cases h
    all_goals
      cases h
      assumption
  · rintro rfl
    exact dispatch_drom k

/-- A miss is a code that is no entry of `DROM`. -/
theorem dispatch_eq_miss_iff {code : Byte} : dispatch code = .miss ↔ ∀ k, code ≠ drom k := by
  simp only [ne_eq, ← dispatch_eq_hit_iff]
  cases dispatch code <;> simp

/-- Settles O37: the four literals are the entries of `DROM`. -/
theorem dispatchHitsExactlyDrom : Obligations.DispatchHitsExactlyDrom := by
  refine fun code => ⟨fun k => dispatch_eq_hit_iff, ?_⟩
  have hentries : code ∈ [0x10#8, 0x11#8, 0x12#8, 0x15#8] ↔ ∃ k, code = drom k := by
    constructor
    · intro hmem
      simp only [List.mem_cons, List.not_mem_nil, or_false] at hmem
      obtain rfl | rfl | rfl | rfl := hmem
      · exact ⟨.readFileMore, rfl⟩
      · exact ⟨.directoryMore, rfl⟩
      · exact ⟨.generic12, rfl⟩
      · exact ⟨.driveCondition, rfl⟩
    · rintro ⟨k, rfl⟩
      cases k <;> decide
  rw [dispatch_eq_miss_iff, hentries, not_exists]

/-! ### The classification of a buffer (R201, R210) -/

/-- In either mode the record's `cls` is the source's `classify` of the buffer. -/
theorem bufferResult_cls_eq_classify (pre : Bool) (buffer : List Byte) :
    (bufferResult pre buffer).cls = classify buffer := by
  cases buffer with
  | nil => cases pre <;> rfl
  | cons v vs => exact bufferResult_cls pre v vs

/-- Settles O31: the record is `bufferResult` of the mode and the bytes, and byte 0 of the buffer in
progress stands in `CODE` (`receiveAll_buffer`). -/
theorem resultClassifiesByteZero : Obligations.ResultClassifiesByteZero := by
  intro buffer s hs hidle
  constructor
  · obtain ⟨t, hrun, hout⟩ := runTrace_delivery_output buffer hs hidle rfl
    exact ⟨t, _, hrun, hout, bufferResult_cls_eq_classify _ buffer⟩
  · intro v rest hbuffer
    obtain ⟨b, -, hrecv, -, -, hcode, -⟩ := receiveAll_buffer buffer hs.2 hidle
    exact ⟨_, runTrace_rx buffer hs.1 hrecv, hcode v rest hbuffer⟩

end Sys2Proof.Machine
end

section
/-! PROOFS. What a step can run into (spec/60_exceptions.md R238, R239): with nothing presented the block is
idle, and after `RST` no step faults or refuses. -/

namespace Sys2Proof.Machine

/-- Settles O55: with no event presented the step is `idle`, which keeps every field but the outputs
(R238). -/
theorem idleStepKeepsBlock : Obligations.IdleStepKeepsBlock := by
  intro s h
  simp only [step, nextEvent, h, idle]

/-- Settles O46: with nothing presented the step is idle, and with an event presented `exec` of it answers
a next state, whose record is the step's (R239, R186). -/
theorem everyStepCompletes : Obligations.EveryStepCompletes := by
  intro s hs
  cases hin : s.input with
  | nil => exact ⟨_, idleStepKeepsBlock s hin⟩
  | cons i rest =>
    obtain ⟨_, _, -, hex, -⟩ := exec_of_inv i (s := { s with input := rest, output := [] }) hs
    exact ⟨_, (step_of_presented hin).trans (congrArg (recordEvent i) hex)⟩

end Sys2Proof.Machine
end

section
/-! PROOFS. Reset and the hazards (spec/70_reset_and_hazards.md R250 to R262): what `RST` and a missing
`RST` do, that an over-long filename stays one, and `SET_PRE` and `RST` in the middle of a buffer. -/

namespace Sys2Proof.Machine

/-! ### `RST` (R250, R251) -/

/-- Settles O40: `RST` commits `Block.resetRegisters`, whose registers are the table's (R43). -/
theorem rstGivesResetValues : Obligations.RstGivesResetValues :=
  fun _ => rfl

/-- Settles O43: every operation but `RST` is performed, and performing needs the launch. -/
theorem onlyRstBeforeLaunch : Obligations.OnlyRstBeforeLaunch := by
  intro i s hl
  split
  next hi => exact hi ▸ ⟨_, rstGivesResetValues s, rfl⟩
  next hi => rw [exec_eq_perform hi, State.perform_beforeReset _ hl]

/-! ### Traces in parts (R69) -/

/-- The rest of a trace whose first part completes. -/
theorem runTrace_append_of_next {is : List Instr} {s t : State} (js : List Instr)
    (h : runTrace is s = .next t) : runTrace (is ++ js) s = runTrace js t := by
  rw [runTrace_append, h]

/-- The rest of a trace whose first operation completes. -/
theorem runTrace_cons_of_next {i : Instr} {s t : State} (is : List Instr)
    (h : exec i s = .next t) : runTrace (i :: is) s = runTrace is t := by
  rw [runTrace, h]

/-- What each operation of a trace keeps, the trace keeps. -/
theorem runTrace_keeps {P : State → Prop} (ops : List Instr)
    (hkeep : ∀ i ∈ ops, ∀ {s t}, exec i s = .next t → P s → P t) :
    ∀ {s t : State}, runTrace ops s = .next t → P s → P t := by
  induction ops with
  | nil =>
    intro s t h hs
    injection h with h
    exact h ▸ hs
  | cons i is ih =>
    intro s t h hs
    obtain ⟨u, hex, hrun⟩ := runTrace_cons_eq_next h
    obtain ⟨hhead, htail⟩ := List.forall_mem_cons.mp hkeep
    exact ih htail hrun (hhead hex hs)

/-! ### The filename overflow is sticky (R255) -/

/-- Only `NM_CLR` and `RST` take `NLEN` away from 25: of its writers, `NM_PUT` then sets it to 25 again
(R144). -/
theorem Writes.overflow_kept {b b' : Block} {i : Instr} (h : Writes b i b') (hclr : i ≠ .nmClr)
    (hrst : i ≠ .rst) (hover : b.nlen.toNat = 25) : b'.nlen.toNat = 25 := by
  cases h with
  | rst => exact absurd rfl hrst
  | nmClr => exact absurd rfl hclr
  | nmPutStore _ hlt => omega
  | nmPutOverflow => rfl
  | rx hr =>
    obtain ⟨-, -, hnlen, -⟩ := receive_frame hr
    rw [hnlen, hover]
  | response hr =>
    obtain ⟨-, -, hnlen, -⟩ := receiveAll_frame hr
    rw [Block.clearParser_nlen, hnlen, hover]
  | nothing | setPre | csClr | csPut | rxEnd => exact hover

/-- Settles O20: `NLEN` stays 25 along the trace, and `ENC_DIR` tests it first (R230). -/
theorem filenameOverflowIsSticky : Obligations.FilenameOverflowIsSticky := by
  intro ops sf s hs hover hclr hrst
  obtain ⟨t, hrun, htl, -⟩ := runTrace_of_inv ops hs
  have hover' : t.block.nlen.toNat = 25 :=
    runTrace_keeps (P := fun s => s.block.nlen.toNat = 25) ops
      (fun _ hi _ _ hex => (exec_writes hex).overflow_kept (ne_of_mem_of_not_mem hi hclr)
        (ne_of_mem_of_not_mem hi hrst)) hrun hover
  exact ⟨t, hrun, exec_of_emit (i := .encDir sf) htl (encodeDirectory_overflow sf hover')⟩

/-! ### `RST` in the middle of a buffer (R250, R262) -/

/-- Settles O36: what `RST` leaves meets R44, in `IDLE` with `PRE` = 0, whatever was received before. -/
theorem rstDropsPartialBuffer : Obligations.RstDropsPartialBuffer := by
  intro before after s hs
  obtain ⟨hl, hb⟩ := hs
  obtain ⟨b, hrecv, hb'⟩ := receiveAll_inv before hb
  have hrst := rstGivesResetValues { s with block := b }
  obtain ⟨t, hrun, hout⟩ := runTrace_delivery_output after
    (exec_inv (s := { s with block := b }) ⟨hl, hb'⟩ hrst) rfl BitVec.getLsbD_zero
  refine ⟨t, ?_, hout⟩
  rw [runTrace_append_of_next _ (runTrace_rx before hl hrecv), runTrace_cons_of_next _ hrst, hrun]

/-! ### A buffer in progress (R187) -/

/-- No byte takes the parser to `IDLE`. -/
theorem nextPhase_ne_idle (b : Block) (v : Byte) : nextPhase b v ≠ .idle := by
  unfold nextPhase
  repeat' split
  all_goals exact Phase.noConfusion

/-- After a byte a buffer is in progress. -/
theorem receive_busy {v : Byte} {b b' : Block} (h : receive v b = .ok b') : b'.phase ≠ .idle := by
  obtain ⟨-, -, -, -, -, hphase⟩ := receive_frame h
  exact hphase ▸ nextPhase_ne_idle b v

/-- Bytes received, the first one apart. -/
theorem receiveAll_cons_eq_ok {v : Byte} {vs : List Byte} {b b' : Block}
    (h : receiveAll (v :: vs) b = .ok b') :
    ∃ m, receive v b = .ok m ∧ receiveAll vs m = .ok b' := by
  rw [receiveAll] at h
  split at h
  next m hm => exact ⟨m, hm, h⟩
  next => cases h

/-- Bytes received, a first part of them apart. -/
theorem receiveAll_append_eq_ok {as bs : List Byte} {b b' : Block}
    (h : receiveAll (as ++ bs) b = .ok b') :
    ∃ m, receiveAll as b = .ok m ∧ receiveAll bs m = .ok b' := by
  rw [receiveAll_append] at h
  split at h
  next m hm => exact ⟨m, hm, h⟩
  next => cases h

/-- A buffer in progress stays in progress while bytes come. -/
theorem receiveAll_busy {vs : List Byte} {b b' : Block} (hbusy : b.phase ≠ .idle)
    (h : receiveAll vs b = .ok b') : b'.phase ≠ .idle := by
  induction vs generalizing b with
  | nil =>
    injection h with h
    exact h ▸ hbusy
  | cons v vs ih =>
    obtain ⟨m, hfirst, hrest⟩ := receiveAll_cons_eq_ok h
    exact ih (receive_busy hfirst) hrest

/-! ### In the middle of a buffer the parser does not read `CTRL` (R26, R171) -/

/-- The block with `CTRL` replaced, as `SET_PRE` replaces it (`exec_setPre`). -/
def Block.withCtrl (b : Block) (c : Byte) : Block := { b with ctrl := c }

/-- `SET_PRE` replaces `CTRL` (R24). -/
theorem exec_setPre (v : Bool) {s : State} (hl : s.launched = true) : exec (.setPre v) s =
    .next { s with block := s.block.withCtrl (ctrlWithPre s.block.ctrl v) } :=
  State.perform_quiet (op := setPre v) hl rfl

/-- Arm `DATA`, whose store is to `DBUF` only (R176). -/
theorem rxData_withCtrl {v : Byte} {b b' : Block} (c : Byte) (h : rxData v b = .ok b') :
    rxData v (b.withCtrl c) = .ok (b'.withCtrl c) := by
  unfold rxData Block.writeEntry at h ⊢
  by_cases hlt : b.dataIndex < bufferSize .dbuf
  · rw [if_pos hlt] at h
    injection h with h
    subst h
    rw [if_pos (show (b.withCtrl c).dataIndex < bufferSize .dbuf from hlt)]
    rfl
  · rw [if_neg hlt] at h
    cases h

/-- `RX` with a buffer in progress: of the arms only that of `IDLE` reads `CTRL`. -/
theorem receive_withCtrl {v : Byte} {b b' : Block} (c : Byte) (hbusy : b.phase ≠ .idle)
    (h : receive v b = .ok b') : receive v (b.withCtrl c) = .ok (b'.withCtrl c) := by
  have hphase : (b.withCtrl c).phase = b.phase := rfl
  rw [receive] at h ⊢
  rw [hphase]
  cases hp : b.phase with
  | idle => exact absurd hp hbusy
  | data =>
    rw [hp] at h
    exact rxData_withCtrl c h
  | hunt | pre2 =>
    rw [hp] at h
    injection h with h
    subst h
    by_cases hv : v = preambleByte <;> simp [rxHunt, rxPre2, hv, Block.withCtrl]
  | type | len | cks | done =>
    rw [hp] at h
    injection h with h
    subst h
    rfl

/-- The bytes of the rest of a buffer. -/
theorem receiveAll_withCtrl {vs : List Byte} {b b' : Block} (c : Byte) (hbusy : b.phase ≠ .idle)
    (h : receiveAll vs b = .ok b') :
    receiveAll vs (b.withCtrl c) = .ok (b'.withCtrl c) := by
  induction vs generalizing b with
  | nil =>
    injection h with h
    exact h ▸ rfl
  | cons v vs ih =>
    obtain ⟨m, hfirst, hrest⟩ := receiveAll_cons_eq_ok h
    rw [receiveAll, receive_withCtrl c hbusy hfirst]
    exact ih (receive_busy hfirst) hrest

/-- The record of a buffer in progress has the mode the buffer started with (R179). -/
theorem Block.result_withCtrl {b : Block} (c : Byte) (data : List Byte) (hbusy : b.phase ≠ .idle) :
    (b.withCtrl c).result data = b.result data := by
  have hmode : (b.withCtrl c).bufferMode = b.bufferMode := by
    rw [Block.bufferMode_eq, Block.bufferMode_eq, if_neg hbusy]
    exact if_neg hbusy
  rw [Block.result, hmode]
  rfl

/-! ### `SET_PRE` in the middle of a buffer (R254) -/

/-- The rest of a buffer, in whatever phase: the record of the block at its end, and the parser
cleared. -/
theorem runTrace_delivery_of_receiveAll {vs : List Byte} {s : State} {b : Block} {data : List Byte}
    (hl : s.launched = true) (hrecv : receiveAll vs s.block = .ok b)
    (hdata : b.dataHeld = some data) :
    runTrace (delivery vs) s = .next { s with
      block := b.clearParser, output := s.output ++ [.res (b.result data)] } := by
  have hend : exec .rxEnd { s with block := b } = .next { s with
      block := b.clearParser, output := s.output ++ [.res (b.result data)] } :=
    State.perform_emit (op := endBuffer) hl (endBuffer_of_dataHeld hdata)
  rw [delivery, runTrace_append_of_next _ (runTrace_rx vs hl hrecv), runTrace_cons_of_next _ hend]
  rfl

/-- A buffer with `SET_PRE(v)` after its first bytes: its record is in the mode it started with, and
`CTRL.PRE` is `v` when it ends. -/
theorem runTrace_buffer_with_setPre (v : Bool) (b0 : Byte) (before after : List Byte) {s : State}
    (hs : s.Inv) (hidle : s.block.phase = .idle) :
    ∃ t, runTrace ((b0 :: before).map .rx ++ .setPre v :: delivery after) s = .next t ∧
      t.Inv ∧ t.block.phase = .idle ∧ t.block.pre = v ∧
      t.output = s.output ++ [.res (bufferResult s.block.pre (b0 :: before ++ after))] := by
  obtain ⟨hl, hb⟩ := hs
  obtain ⟨b, data, hrecv, hb', hdata, -, hresult⟩ :=
    receiveAll_buffer (b0 :: before ++ after) hb hidle
  obtain ⟨m, hfirst, hrest⟩ := receiveAll_append_eq_ok hrecv
  obtain ⟨m0, hm0, hm⟩ := receiveAll_cons_eq_ok hfirst
  have hbusy : m.phase ≠ .idle := receiveAll_busy (receive_busy hm0) hm
  obtain ⟨-, hctrl, -⟩ := receiveAll_frame hrest
  have hrun := runTrace_delivery_of_receiveAll
    (s := { s with block := m.withCtrl (ctrlWithPre m.ctrl v) }) hl
    (receiveAll_withCtrl _ hbusy hrest) hdata
  rw [Block.result_withCtrl _ _ (receiveAll_busy hbusy hrest), hresult,
    ← runTrace_cons_of_next _ (exec_setPre v (s := { s with block := m }) hl),
    ← runTrace_append_of_next _ (runTrace_rx _ hl hfirst)] at hrun
  exact ⟨_, hrun, ⟨hl, Block.clearParser_inv (hctrl ▸ hb'.withPre v)⟩, rfl,
    ctrlWithPre_getLsbD _ v 0, rfl⟩

/-- Settles O35: the buffer in progress keeps its mode, and the next one is delivered from `IDLE` with
`PRE` = `v`. -/
theorem setPreWaitsForNextBuffer : Obligations.SetPreWaitsForNextBuffer := by
  intro v b0 before after next s hs hidle
  obtain ⟨m, hrun, hm, hmidle, hmpre, hmout⟩ :=
    runTrace_buffer_with_setPre v b0 before after hs hidle
  obtain ⟨t, hnext, hout⟩ := runTrace_delivery_output next hm hmidle hmpre
  refine ⟨t, by rw [runTrace_append_of_next _ hrun, hnext], ?_⟩
  rw [hout, hmout, List.append_assoc]
  rfl

end Sys2Proof.Machine
end
